-- ==== Sys2Proof/Word.lean ====
section
/-!
DEFINITION. The word type of the machine (00_scope.md R8, R9).

Registers, memory cells, the program counter, operand bytes and addresses are all bytes. The operators `+₈`, `-₈` and
`*₈` of R9 are the modular `+`, `-` and `*` of `BitVec 8`; exact arithmetic is done on `toNat`.
-/

namespace Sys2Proof

/-- A byte, a value in 0..255 (R8). Also an address: `ADDR_WIDTH` is 8 (R7). -/
abbrev Byte := BitVec 8

/-- The index of a register that exists, 0..7 (R20, `NREG` of R7). -/
abbrev Reg := Fin 8

end Sys2Proof
end

