-- ==== Sys2Proof/Syntax.lean ====
section
/-!
DEFINITION. The instruction set as data: the thirteen mnemonics and the instructions with their operand bytes
(00_scope.md R2, 30_encoding.md R70, R71).
-/

namespace Sys2Proof

/-- An operand byte that R71 marks as a register index. It is the raw byte: R79's check that it is in 0..7 is
`Instr.wellFormed`, and an instruction whose index fails it is executable too (it ends in Fatal, R79). -/
abbrev RegOperand := Byte

/-- An operand byte that R71 marks as an immediate (LDI's `Y` only, R77). -/
abbrev Immediate := Byte

/-- The thirteen mnemonics, in the order of the opcode table (R2, R72). -/
inductive Mnemonic
  | ldi | prn | add | mul | cmp | pop | push | call | ret | jmp | jeq | jne | hlt
  deriving DecidableEq, Repr

/-- One instruction: its mnemonic and exactly the operand bytes of its format (R70, R71). -/
inductive Instr
  | ldi  (x : RegOperand) (imm : Immediate)
  | prn  (x : RegOperand)
  | add  (x y : RegOperand)
  | mul  (x y : RegOperand)
  | cmp  (x y : RegOperand)
  | pop  (x : RegOperand)
  | push (x : RegOperand)
  | call (x : RegOperand)
  | ret
  | jmp  (x : RegOperand)
  | jeq  (x : RegOperand)
  | jne  (x : RegOperand)
  | hlt
  deriving DecidableEq, Repr

end Sys2Proof
end

