-- ==== Sys2Proof/Config.lean ====
section
/-!
DEFINITION. The implementation parameters of 00_scope.md R7: the fixed ones as constants, the two OPEN ones as the data
type `Params`, which a machine takes as an argument (notes/assumptions/1.md).
-/

namespace Sys2Proof

/-- `MEM_SIZE` (R7, R29). -/
def memSize : Nat := 256

/-- `SP_INDEX` (R7): the stack pointer is register 7 (R22). -/
def spIndex : Reg := 7

/-- `SP_RESET` (R7, R181). -/
def spReset : Byte := 255

/-- `PC_RESET` (R7, R180). -/
def pcReset : Byte := 0

/-- The parameter `OPC` (R7, R72): a map from the thirteen mnemonics to opcode bytes, as plain data. -/
structure Opcodes where
  ldi  : Byte
  prn  : Byte
  add  : Byte
  mul  : Byte
  cmp  : Byte
  pop  : Byte
  push : Byte
  call : Byte
  ret  : Byte
  jmp  : Byte
  jeq  : Byte
  jne  : Byte
  hlt  : Byte
  deriving DecidableEq, Repr

/-- `OPC(m)`: the opcode byte bound to a mnemonic. -/
def Opcodes.of (o : Opcodes) : Mnemonic → Byte
  | .ldi => o.ldi
  | .prn => o.prn
  | .add => o.add
  | .mul => o.mul
  | .cmp => o.cmp
  | .pop => o.pop
  | .push => o.push
  | .call => o.call
  | .ret => o.ret
  | .jmp => o.jmp
  | .jeq => o.jeq
  | .jne => o.jne
  | .hlt => o.hlt

/-- The two parameters R7 leaves OPEN. They are fixed for a run (R34). -/
structure Params where
  /-- `OPC`. -/
  opc : Opcodes
  /-- `STRICT_BOUNDS`. -/
  strictBounds : Bool
  deriving DecidableEq, Repr

end Sys2Proof
end

