-- ==== Sys2Proof/WellFormed.lean ====
section
/-!
DEFINITION. What is well formed: an instruction whose register operands exist (30_encoding.md R79) and a binding of
`OPC` that meets 30_encoding.md R73.
-/

namespace Sys2Proof

/-- The check of R79 on one register-index operand: it is in 0..7. -/
def regOperandOk (x : RegOperand) : Bool := decide (x.toNat < 8)

/-- The operand bytes of an instruction that R71 marks as register indices, in the order X, Y. -/
def Instr.regOperands : Instr → List RegOperand
  | .ldi x _ => [x]
  | .prn x => [x]
  | .add x y => [x, y]
  | .mul x y => [x, y]
  | .cmp x y => [x, y]
  | .pop x => [x]
  | .push x => [x]
  | .call x => [x]
  | .ret => []
  | .jmp x => [x]
  | .jeq x => [x]
  | .jne x => [x]
  | .hlt => []

/-- Every register operand is in 0..7 (R79). No other byte is checked: LDI's immediate may be any byte. -/
def Instr.wellFormed (i : Instr) : Bool := i.regOperands.all regOperandOk

/-- The opcode bytes of a binding, in the order of the table. -/
def Opcodes.toList (o : Opcodes) : List Byte :=
  [o.ldi, o.prn, o.add, o.mul, o.cmp, o.pop, o.push, o.call, o.ret, o.jmp, o.jeq, o.jne, o.hlt]

/-- R73 (a) and (b): the thirteen values are distinct and 0x00 is not one of them. (R73 (c) needs no check: a width
belongs to a mnemonic, `Mnemonic.width`.) -/
def Opcodes.wellFormed (o : Opcodes) : Bool := decide o.toList.Nodup && !o.toList.contains 0

end Sys2Proof
end

