-- ==== Sys2Proof/Decode.lean ====
section
/-!
DEFINITION. The decoder, total on any bytes, and the encoder, both for any binding of `OPC` (30_encoding.md R70 to R78),
and the default binding of R72.

The decoder compares the opcode byte as a whole with each value of the binding (R75) and looks at no bit inside it
(R73). It refuses by name a byte that is not in the binding's range (R78). It does not check register indices: R80
makes that a later check, which each meaning makes for itself (Machine/Operands.lean).
-/

namespace Sys2Proof

/-- Why the decoder refuses. -/
inductive DecodeError
  /-- `op` is not in the range of `OPC` (R78). -/
  | unknownInstruction (op : Byte)
  deriving DecidableEq, Repr

/-- `WIDTH(op)`, the total length in bytes, fixed per mnemonic (R70, R83). -/
def Mnemonic.width : Mnemonic → Nat
  | .ldi | .add | .mul | .cmp => 3
  | .prn | .pop | .push | .call | .jmp | .jeq | .jne => 2
  | .ret | .hlt => 1

/-- The thirteen mnemonics in the order of the table (R72). -/
def allMnemonics : List Mnemonic :=
  [.ldi, .prn, .add, .mul, .cmp, .pop, .push, .call, .ret, .jmp, .jeq, .jne, .hlt]

/-- The mnemonic whose opcode value equals the byte (R75). In a binding that meets R73 at most one does; in another one
the first of the table is taken (DESIGN CHOICE, notes/assumptions/13.md). -/
def lookupOpcode (o : Opcodes) (op : Byte) : Option Mnemonic :=
  allMnemonics.find? fun m => o.of m == op

/-- The instruction of a mnemonic and the two bytes fetched after the opcode; bytes beyond the mnemonic's width are
ignored (R70, R71, R74). -/
def Mnemonic.instr (m : Mnemonic) (x y : Byte) : Instr :=
  match m with
  | .ldi => .ldi x y
  | .prn => .prn x
  | .add => .add x y
  | .mul => .mul x y
  | .cmp => .cmp x y
  | .pop => .pop x
  | .push => .push x
  | .call => .call x
  | .ret => .ret
  | .jmp => .jmp x
  | .jeq => .jeq x
  | .jne => .jne x
  | .hlt => .hlt

/-- Decode the three fetched bytes `op`, `X`, `Y` (R74, R75, R78). -/
def decode (o : Opcodes) (op x y : Byte) : Except DecodeError Instr :=
  match lookupOpcode o op with
  | some m => .ok (m.instr x y)
  | none => .error (.unknownInstruction op)

/-- The mnemonic of an instruction. -/
def Instr.mnemonic : Instr → Mnemonic
  | .ldi _ _ => .ldi
  | .prn _ => .prn
  | .add _ _ => .add
  | .mul _ _ => .mul
  | .cmp _ _ => .cmp
  | .pop _ => .pop
  | .push _ => .push
  | .call _ => .call
  | .ret => .ret
  | .jmp _ => .jmp
  | .jeq _ => .jeq
  | .jne _ => .jne
  | .hlt => .hlt

/-- The operand bytes of an instruction in the order they stand in memory, X then Y (R54, R70). -/
def Instr.operands : Instr → List Byte
  | .ldi x imm => [x, imm]
  | .prn x => [x]
  | .add x y => [x, y]
  | .mul x y => [x, y]
  | .cmp x y => [x, y]
  | .pop x => [x]
  | .push x => [x]
  | .call x => [x]
  | .ret => []
  | .jmp x => [x]
  | .jeq x => [x]
  | .jne x => [x]
  | .hlt => []

/-- `WIDTH` of an instruction (R83). -/
def Instr.width (i : Instr) : Nat := i.mnemonic.width

/-- The bytes of an instruction at increasing addresses: opcode, then its operand bytes (R54, R70, R84). -/
def encode (o : Opcodes) (i : Instr) : List Byte := o.of i.mnemonic :: i.operands

/-- The default binding of R72: the LS-8 opcode bytes (PRESUMED by the spec itself, decision D1;
notes/assumptions/2.md). -/
def defaultOpcodes : Opcodes where
  ldi  := 0x82
  prn  := 0x47
  add  := 0xA0
  mul  := 0xA2
  cmp  := 0xA7
  pop  := 0x46
  push := 0x45
  call := 0x50
  ret  := 0x11
  jmp  := 0x54
  jeq  := 0x55
  jne  := 0x56
  hlt  := 0x01

/-- The defaults of R7: the default binding, and `STRICT_BOUNDS` false (notes/assumptions/3.md). -/
def defaultParams : Params where
  opc := defaultOpcodes
  strictBounds := false

/-- Byte `k` of an instruction written as one number, the first byte least significant. -/
def wordByte (w k : Nat) : Byte := BitVec.ofNat 8 (w / 256 ^ k)

/-- The instruction the decoder reads from a row of the opcode table, whose bits are `w`: bits 7..0 are the opcode byte,
15..8 the byte X, 23..16 the byte Y; bits from `nbits` on are zero. -/
def decodeTableWord (nbits w : Nat) : Option Instr :=
  match decode defaultOpcodes (wordByte (w % 2 ^ nbits) 0) (wordByte (w % 2 ^ nbits) 1) (wordByte (w % 2 ^ nbits) 2) with
  | .ok i => some i
  | .error _ => none

end Sys2Proof
end

