-- ==== Sys2Proof/Machine/State.lean ====
section
/-!
DEFINITION. The state of the machine as plain data (10_state.md R34), the reasons a step may stop, and the state right
after reset (70_reset_and_hazards.md R180).
-/

namespace Sys2Proof.Machine

/-- The memory of R29 as a list of (address, byte) pairs in canonical form (`Memory.wf`, Machine/Ops.lean). An address
that is not listed reads as 0, the reset contents of R180. -/
structure Memory where
  cells : List Host.Cell
  deriving DecidableEq, Repr

/-- The run state of the controller (R27). -/
inductive RunState
  | running
  | halted
  | fatal
  deriving DecidableEq, Repr

/-- The fault causes of R150, by name; `FaultCause.code` (Machine/Ops.lean) gives their codes. -/
inductive FaultCause
  /-- An opcode byte that is not in the range of `OPC` (R78). -/
  | unknownInstruction
  /-- The ALU given an opcode it does not implement. No step raises it (R103, R154). -/
  | unsupportedOperation
  /-- A register-index operand of 8 or more (R79). -/
  | invalidRegister
  /-- A bound of R155 to R158 violated, only with `STRICT_BOUNDS`. -/
  | boundsViolation
  deriving DecidableEq, Repr

/-- The whole state of the CORE: exactly the record of R34. -/
structure CoreState where
  /-- R0 to R7 (R20); `reg[7]` is the stack pointer itself (R22). -/
  reg : Vector Byte 8
  /-- The program counter (R24). -/
  pc : Byte
  /-- L, less (R25). -/
  flagL : Bool
  /-- G, greater (R25). -/
  flagG : Bool
  /-- E, equal (R25). -/
  flagE : Bool
  /-- The 256 cells (R29). -/
  mem : Memory
  /-- Running, Halted or Fatal (R27). -/
  run : RunState
  /-- The 3-bit cause code of the fault record (R28, R150). -/
  faultCause : BitVec 3
  /-- The address of the faulting instruction (R28). -/
  faultPc : Byte
  /-- The output stream, oldest byte first (R30). -/
  out : List Byte
  deriving DecidableEq, Repr

/-- A machine: the CORE's state together with the parameters R7 leaves OPEN. The parameters are not state (R34); no step
changes them. They stand here because `exec` and `step` take no other argument (DESIGN CHOICE,
notes/assumptions/1.md). -/
structure State extends CoreState where
  /-- `OPC` and `STRICT_BOUNDS` of this machine (R7). -/
  params : Params
  deriving DecidableEq, Repr

/-- Reasons for the MODEL to stop. There is none: every error of this hardware enters the run state Fatal, which is a
state of the machine (R151, R160), so a step that meets one answers a NEXT state (safe; notes/assumptions/4.md). -/
inductive Fault
  deriving DecidableEq, Repr

/-- Reasons the model gives no meaning. -/
inductive Refusal
  /-- An arm of `exec` that has no meaning yet raises it. Every arm has one, so nothing raises it (safe). -/
  | notModelled (mnemonic : String)
  /-- `loadImage` raises it for a program image longer than 256 bytes: the host refuses such an image and the CORE
  never starts (R184, I13). No step raises it (safe). -/
  | imageTooLong (length : Nat)
  deriving DecidableEq, Repr

/-- The registers after reset: R0 to R6 are 0 and SP is 255 (R180, R181). -/
def resetRegs : Vector Byte 8 := (Vector.replicate 8 (0 : Byte)).set spIndex.val spReset spIndex.isLt

/-- The reset state of R180 for a machine with parameters `p` and the empty image. -/
def State.resetWith (p : Params) : State where
  reg := resetRegs
  pc := pcReset
  flagL := false
  flagG := false
  flagE := false
  mem := { cells := [] }
  run := .running
  faultCause := 0
  faultPc := 0
  out := []
  params := p

/-- The machine right after reset (R180), nothing loaded, with the default parameters of R7. -/
def State.reset : State := State.resetWith defaultParams

end Sys2Proof.Machine
end

