-- ==== Sys2Proof/Machine/Ops.lean ====
section
/-!
DEFINITION. The named operations over memory, registers, the program counter, the output stream and the run state: the
pseudocode primitives of 00_scope.md R10, and the entry into Fatal of 60_exceptions.md R151.
-/

namespace Sys2Proof.Machine

/-! ### Memory (20_memory.md R50 to R56) -/

/-- What a cell that is not listed holds: 0, the reset contents of R180. -/
def unlistedByte : Byte := 0

/-- The byte listed for an address, or `unlistedByte`. -/
def lookupCell : List Host.Cell → Nat → Byte
  | [], _ => unlistedByte
  | (b, w) :: rest, a => if a = b then w else lookupCell rest a

/-- List a byte for an address that is not listed, before the first higher address. -/
def insertCell (a : Nat) (v : Byte) : List Host.Cell → List Host.Cell
  | [] => [(a, v)]
  | (b, w) :: rest => if a < b then (a, v) :: (b, w) :: rest else (b, w) :: insertCell a v rest

/-- Put a byte at an address: what was listed for it goes, and the byte is listed unless it is `unlistedByte`. -/
def updateCell (a : Nat) (v : Byte) (cells : List Host.Cell) : List Host.Cell :=
  if v = unlistedByte then cells.filter (fun c => c.1 != a)
  else insertCell a v (cells.filter fun c => c.1 != a)

/-- The canonical form: addresses strictly rising and below 256, and no cell that holds `unlistedByte`. Two memories in
canonical form that read alike are equal. -/
abbrev Memory.wf (m : Memory) : Prop :=
  m.cells.Pairwise (fun c d => c.1 < d.1) ∧ ∀ c ∈ m.cells, c.1 < memSize ∧ c.2 ≠ unlistedByte

/-- `MemRead(a, 1)` (R52): a read changes no state. -/
def Memory.read (m : Memory) (a : Byte) : Byte := lookupCell m.cells a.toNat

/-- `MemWrite(a, 1, v)` (R52): changes cell `a` and nothing else. -/
def Memory.write (m : Memory) (a v : Byte) : Memory := { cells := updateCell a.toNat v m.cells }

/-- Write bytes at increasing addresses from `a` on, wrapping modulo 256 (R53, R54). -/
def Memory.writeBytes (m : Memory) (a : Byte) : List Byte → Memory
  | [] => m
  | b :: bs => (m.write a b).writeBytes (a + 1) bs

namespace State

/-- `MemRead` of R10. -/
def memRead (s : State) (a : Byte) : Byte := s.mem.read a

/-- `MemWrite` of R10. -/
def memWrite (s : State) (a v : Byte) : State := { s with mem := s.mem.write a v }

/-! ### Registers (10_state.md R20 to R23): none is hardwired, and 7 is the stack pointer itself -/

/-- Read register `r`, `x[r]` of R10. -/
def getReg (s : State) (r : Reg) : Byte := s.reg[r]

/-- Write register `r`, `x[r] <- v` of R10; writing register 7 writes SP (R22). -/
def setReg (s : State) (r : Reg) (v : Byte) : State := { s with reg := s.reg.set r.val v r.isLt }

/-- SP, the same cell as `x[7]` (R22). -/
def sp (s : State) : Byte := s.getReg spIndex

/-- `SP <- v`. -/
def setSp (s : State) (v : Byte) : State := s.setReg spIndex v

/-! ### Program counter, output, run state -/

/-- `pc <- target` (R10). -/
def setPc (s : State) (target : Byte) : State := { s with pc := target }

/-- `pc <- pc +₈ n` (R81), wrapping modulo 256 (R24). -/
def advance (s : State) (n : Nat) : State := s.setPc (s.pc + BitVec.ofNat 8 n)

/-- `Emit(v)`: append a byte to the output stream (R10, R30). -/
def emit (s : State) (v : Byte) : State := { s with out := s.out ++ [v] }

/-- `halt()`: enter Halted (R140). -/
def halt (s : State) : State := { s with run := .halted }

end State

/-! ### Fatal errors (60_exceptions.md R150, R151): the one way an exception is taken on this hardware

There is no return from it and no handler (R160, R162); only reset leaves Fatal (R182). -/

/-- The code of a cause (R150). -/
def FaultCause.code : FaultCause → BitVec 3
  | .unknownInstruction => 1
  | .unsupportedOperation => 2
  | .invalidRegister => 3
  | .boundsViolation => 4

/-- `raise Fatal(cause, pc0)` (R151) with `pc0` the pc of the instruction that raises it: it writes the run state and
the fault record and nothing else, and `pc` keeps its value. -/
def State.raiseFatal (s : State) (cause : FaultCause) : State :=
  { s with run := .fatal, faultCause := cause.code, faultPc := s.pc }

end Sys2Proof.Machine
end

