-- ==== Sys2Proof/Machine/Flags.lean ====
section
/-!
DEFINITION. The one flag computation of the machine: CMP's (41_alu.md R102). No other instruction writes a flag, and
nothing ever clears one (10_state.md R25).
-/

namespace Sys2Proof.Machine

/-- CMP of `a` with `b`, unsigned: sets exactly one of L, G, E to 1 and keeps the other two (R102). -/
def State.compareFlags (s : State) (a b : Byte) : State :=
  if a.toNat < b.toNat then { s with flagL := true }
  else if b.toNat < a.toNat then { s with flagG := true }
  else { s with flagE := true }

end Sys2Proof.Machine
end

