-- ==== Sys2Proof/Machine/Operands.lean ====
section
/-!
DEFINITION. The operand forms and the checks of an instruction: the register-index check of 30_encoding.md R79 and the
strict bounds of 60_exceptions.md R156 to R158, in the order of 30_encoding.md R80 and 60_exceptions.md R159.

A meaning is written as: the register operands, then its own bounds, then its effect. Every check comes before the
first write, so a fault is precise (R152).
-/

namespace Sys2Proof.Machine

/-- The register a register-index operand names, if it is in 0..7 (R79). -/
def regIndex? (x : RegOperand) : Option Reg :=
  if h : x.toNat < 8 then some ⟨x.toNat, h⟩ else none

/-- An instruction with one register operand: InvalidRegister if the index is 8 or more, else its body (R79). -/
def withReg (x : RegOperand) (s : State) (body : Reg → State) : State :=
  match regIndex? x with
  | some rX => body rX
  | none => s.raiseFatal .invalidRegister

/-- An instruction with two register operands: both are checked (R79). -/
def withRegs (x y : RegOperand) (s : State) (body : Reg → Reg → State) : State :=
  withReg x s fun rX => withReg y s fun rY => body rX rY

/-- A strict bound: with `STRICT_BOUNDS`, BoundsViolation if `violated`, else the effect (R80 step 4). -/
def bounded (s : State) (violated : Bool) (effect : State) : State :=
  if s.params.strictBounds && violated then s.raiseFatal .boundsViolation else effect

/-- The fetch bound of R155: `pc0 + 2 > 255`. -/
def State.fetchLeaves (s : State) : Bool := decide (255 < s.pc.toNat + 2)

/-- The advance bound of R156: `pc0 + WIDTH(op) > 255`. -/
def State.advanceLeaves (s : State) (width : Nat) : Bool := decide (255 < s.pc.toNat + width)

/-- The bound of R157 for PUSH and CALL: the decrement would carry SP below 0. -/
def State.stackFull (s : State) : Bool := s.sp == 0

/-- The bound of R157 for POP and RET: the increment would carry SP past 255. -/
def State.stackEmpty (s : State) : Bool := s.sp == 255

/-- The bound of R158 for ADD: the exact sum exceeds 255. -/
def sumLeaves (a b : Byte) : Bool := decide (255 < a.toNat + b.toNat)

/-- The bound of R158 for MUL: the exact product exceeds 255. -/
def productLeaves (a b : Byte) : Bool := decide (255 < a.toNat * b.toNat)

end Sys2Proof.Machine
end

