-- ==== Sys2Proof/Machine/Alu.lean ====
section
/-!
DEFINITION. The ALU instructions ADD, MUL, CMP (41_alu.md R100 to R104). The ALU has no other operation, so nothing can
raise UnsupportedOperation (R103).
-/

namespace Sys2Proof.Machine

/-- ADD (R100): `x[rX] <- a +₈ b`. No flag is written. -/
def execAdd (x y : RegOperand) (s : State) : Host.Outcome State Fault Refusal :=
  .next <| withRegs x y s fun rX rY =>
    let a := s.getReg rX
    let b := s.getReg rY
    bounded s (sumLeaves a b || s.advanceLeaves 3) <|
      (s.setReg rX (a + b)).advance 3

/-- MUL (R101): `x[rX] <- a *₈ b`, the low 8 bits of the product. No flag is written. -/
def execMul (x y : RegOperand) (s : State) : Host.Outcome State Fault Refusal :=
  .next <| withRegs x y s fun rX rY =>
    let a := s.getReg rX
    let b := s.getReg rY
    bounded s (productLeaves a b || s.advanceLeaves 3) <|
      (s.setReg rX (a * b)).advance 3

/-- CMP (R102): sets one flag; no register is written. -/
def execCmp (x y : RegOperand) (s : State) : Host.Outcome State Fault Refusal :=
  .next <| withRegs x y s fun rX rY =>
    bounded s (s.advanceLeaves 3) <|
      (s.compareFlags (s.getReg rX) (s.getReg rY)).advance 3

end Sys2Proof.Machine
end

