-- ==== Sys2Proof/Machine/Stack.lean ====
section
/-!
DEFINITION. The stack instructions POP, PUSH (42_stack.md R110 to R112) and the two stack movements that CALL and RET
share with them. The stack is full-descending: a push decrements SP and then stores, a pop reads and then increments.
The statements of an instruction run in order, each seeing the writes before it (D6), which is what decides the case
where the operand is register 7.
-/

namespace Sys2Proof.Machine

/-- `SP <- SP -₈ 1`, the first statement of PUSH and CALL. -/
def State.growStack (s : State) : State := s.setSp (s.sp - 1)

/-- `SP <- SP +₈ 1`, the last stack statement of POP and RET. -/
def State.shrinkStack (s : State) : State := s.setSp (s.sp + 1)

/-- `MemWrite(SP, 1, v)`. -/
def State.storeTop (s : State) (v : Byte) : State := s.memWrite s.sp v

/-- `MemRead(SP, 1)`. -/
def State.readTop (s : State) : Byte := s.memRead s.sp

/-- POP (R110): `x[rX] <- MemRead(SP, 1)`, then `SP <- SP +₈ 1` with SP read after that write. -/
def execPop (x : RegOperand) (s : State) : Host.Outcome State Fault Refusal :=
  .next <| withReg x s fun rX =>
    bounded s (s.stackEmpty || s.advanceLeaves 2) <|
      ((s.setReg rX s.readTop).shrinkStack).advance 2

/-- PUSH (R111): `SP <- SP -₈ 1`, then `MemWrite(SP, 1, x[rX])` with `x[rX]` read after the decrement. -/
def execPush (x : RegOperand) (s : State) : Host.Outcome State Fault Refusal :=
  .next <| withReg x s fun rX =>
    bounded s (s.stackFull || s.advanceLeaves 2) <|
      (s.growStack.storeTop (s.growStack.getReg rX)).advance 2

end Sys2Proof.Machine
end

