-- ==== Sys2Proof/Machine/Control.lean ====
section
/-!
DEFINITION. The control transfers CALL, RET, JMP, JEQ, JNE (43_control.md R120 to R126). They set pc themselves. Every
target is an absolute byte from a register or from the stack.
-/

namespace Sys2Proof.Machine

/-- CALL (R120): push `pc +₈ 2`, then `pc <- x[rX]` with `x[rX]` read after the push. -/
def execCall (x : RegOperand) (s : State) : Host.Outcome State Fault Refusal :=
  .next <| withReg x s fun rX =>
    bounded s s.stackFull <|
      let pushed := s.growStack.storeTop (s.pc + 2)
      pushed.setPc (pushed.getReg rX)

/-- RET (R121): `pc <- MemRead(SP, 1)`, then `SP <- SP +₈ 1`. -/
def execRet (s : State) : Host.Outcome State Fault Refusal :=
  .next <| bounded s s.stackEmpty <|
    (s.setPc s.readTop).shrinkStack

/-- JMP (R122): `pc <- x[rX]`. -/
def execJmp (x : RegOperand) (s : State) : Host.Outcome State Fault Refusal :=
  .next <| withReg x s fun rX => s.setPc (s.getReg rX)

/-- JEQ (R124): `pc <- x[rX]` if E is 1, else `pc <- pc +₈ 2`. The index is checked either way (R79). -/
def execJeq (x : RegOperand) (s : State) : Host.Outcome State Fault Refusal :=
  .next <| withReg x s fun rX =>
    if s.flagE then s.setPc (s.getReg rX) else s.advance 2

/-- JNE (R125): `pc <- x[rX]` if E is 0, else `pc <- pc +₈ 2`. The index is checked either way (R79). -/
def execJne (x : RegOperand) (s : State) : Host.Outcome State Fault Refusal :=
  .next <| withReg x s fun rX =>
    if s.flagE then s.advance 2 else s.setPc (s.getReg rX)

end Sys2Proof.Machine
end

