-- ==== Sys2Proof/Machine/LoadPrint.lean ====
section
/-!
DEFINITION. Load-immediate and print: LDI, PRN (40_load_print.md R90 to R92).
-/

namespace Sys2Proof.Machine

/-- LDI (R91): `x[rX] <- Y`. -/
def execLdi (x : RegOperand) (imm : Immediate) (s : State) : Host.Outcome State Fault Refusal :=
  .next <| withReg x s fun rX =>
    bounded s (s.advanceLeaves 3) <|
      (s.setReg rX imm).advance 3

/-- PRN (R92): `Emit(x[rX])`. -/
def execPrn (x : RegOperand) (s : State) : Host.Outcome State Fault Refusal :=
  .next <| withReg x s fun rX =>
    bounded s (s.advanceLeaves 2) <|
      (s.emit (s.getReg rX)).advance 2

end Sys2Proof.Machine
end

