-- ==== Sys2Proof/Machine/System.lean ====
section
/-!
DEFINITION. The one system instruction, HLT (44_system.md R140, R141).
-/

namespace Sys2Proof.Machine

/-- HLT (R140): enter Halted; pc advances by 1 (R81, D16). -/
def execHlt (s : State) : Host.Outcome State Fault Refusal :=
  .next <| bounded s (s.advanceLeaves 1) <| s.halt.advance 1

end Sys2Proof.Machine
end

