-- ==== Sys2Proof/Machine/Dispatch.lean ====
section
/-!
DEFINITION. `Execute_op` of 30_encoding.md R82: one arm per instruction, each one call of its meaning.
-/

namespace Sys2Proof.Machine

def exec (i : Instr) (s : State) : Host.Outcome State Fault Refusal :=
  match i with
  | .ldi x imm => Sys2Proof.Machine.execLdi x imm s
  | .prn x => Sys2Proof.Machine.execPrn x s
  | .add x y => Sys2Proof.Machine.execAdd x y s
  | .mul x y => Sys2Proof.Machine.execMul x y s
  | .cmp x y => Sys2Proof.Machine.execCmp x y s
  | .pop x => Sys2Proof.Machine.execPop x s
  | .push x => Sys2Proof.Machine.execPush x s
  | .call x => Sys2Proof.Machine.execCall x s
  | .ret => Sys2Proof.Machine.execRet s
  | .jmp x => Sys2Proof.Machine.execJmp x s
  | .jeq x => Sys2Proof.Machine.execJeq x s
  | .jne x => Sys2Proof.Machine.execJne x s
  | .hlt => Sys2Proof.Machine.execHlt s

end Sys2Proof.Machine
end

