-- ==== Sys2Proof/Machine/Cycle.lean ====
section
/-!
DEFINITION. The fetch-decode-execute cycle: `Step()` of 30_encoding.md R82, in the check order of R80 and
60_exceptions.md R159, and the placing of an instruction where the next fetch reads it.
-/

namespace Sys2Proof.Machine

/-- The three bytes of R74, read from the memory as it stands at the start of the step (20_memory.md R57), decoded with
this machine's binding (R75). Addresses wrap modulo 256 (R53). -/
def State.fetchDecode (s : State) : Except DecodeError Instr :=
  decode s.params.opc (s.memRead s.pc) (s.memRead (s.pc + 1)) (s.memRead (s.pc + 2))

/-- The part of `Step()` that is taken in Running: the fetch bound (R155), the fetch and the opcode check (R78), then
the instruction, which checks its register indices and its own bounds (R79, R156 to R158) before its effect. -/
def State.runCycle (s : State) : Host.Outcome State Fault Refusal :=
  if s.params.strictBounds && s.fetchLeaves then .next (s.raiseFatal .boundsViolation)
  else
    match s.fetchDecode with
    | .ok i => exec i s
    | .error (.unknownInstruction _) => .next (s.raiseFatal .unknownInstruction)

/-- One rising edge of `clk` with `rst` low (R82, R191). In Halted and Fatal nothing changes (R27). -/
def State.cycle (s : State) : Host.Outcome State Fault Refusal :=
  match s.run with
  | .running => s.runCycle
  | .halted => .next s
  | .fatal => .next s

/-- The bytes of an instruction stored where the next fetch reads: at pc, `pc +₈ 1` and `pc +₈ 2` (R74). -/
def State.placeAtFetch (s : State) (bytes : List Byte) : State :=
  { s with mem := s.mem.writeBytes s.pc bytes }

/-- The three bytes of an instruction given as one number, the first byte least significant, the bits from `nbits` on
zero. -/
def tableWordBytes (nbits w : Nat) : List Byte :=
  [wordByte (w % 2 ^ nbits) 0, wordByte (w % 2 ^ nbits) 1, wordByte (w % 2 ^ nbits) 2]

end Sys2Proof.Machine
end

