-- ==== Sys2Proof/Machine/Step.lean ====
section
/-!
DEFINITION. One step of the machine (30_encoding.md R82).
-/

namespace Sys2Proof.Machine

/-- One step: one instruction, one clock edge with `rst` low (R82, R191). -/
def step (s : State) : Host.Outcome State Fault Refusal := s.cycle

/-- `s` with the instruction whose bits are `w` (30_encoding.md R70; the first byte least significant) stored where the
next step fetches: at pc and the two bytes after it. Only memory changes. It stands for the host's load of R183 and R184
(notes/assumptions/8.md); in a Running state whose pc meets the fetch bound of R155 the next step runs that instruction. -/
def State.withFetchWord (s : State) (nbits w : Nat) : State := s.placeAtFetch (tableWordBytes nbits w)

end Sys2Proof.Machine
end

