-- ==== Sys2Proof/Machine/Assembly.lean ====
section
/-!
DEFINITION. The assembler syntax of 30_encoding.md R84, one line at a time, over lists of characters: writing an
instruction as a line, reading a line, and assembling it to the bytes of its encoding. The CORE sees only the bytes.

What R84 leaves open is a DESIGN CHOICE, notes/assumptions/14.md: blanks between tokens, the comma as a token of its own,
the letter case of each part of a line, leading zeros in a literal, and that a line carries no comment.
-/

namespace Sys2Proof.Machine

/-- The spelling of a mnemonic. -/
def mnemonicName : Mnemonic → String
  | .ldi => "LDI"
  | .prn => "PRN"
  | .add => "ADD"
  | .mul => "MUL"
  | .cmp => "CMP"
  | .pop => "POP"
  | .push => "PUSH"
  | .call => "CALL"
  | .ret => "RET"
  | .jmp => "JMP"
  | .jeq => "JEQ"
  | .jne => "JNE"
  | .hlt => "HLT"

/-- `Rx`, for an index 0..7. -/
def regName (x : RegOperand) : List Char := ['R', Nat.digitChar x.toNat]

/-- An immediate in decimal. -/
def immName (v : Immediate) : List Char := Nat.toDigits 10 v.toNat

/-- The operand part of a line. -/
def operandText : Instr → List Char
  | .ldi x imm => ' ' :: regName x ++ [',', ' '] ++ immName imm
  | .prn x => ' ' :: regName x
  | .add x y => ' ' :: regName x ++ [',', ' '] ++ regName y
  | .mul x y => ' ' :: regName x ++ [',', ' '] ++ regName y
  | .cmp x y => ' ' :: regName x ++ [',', ' '] ++ regName y
  | .pop x => ' ' :: regName x
  | .push x => ' ' :: regName x
  | .call x => ' ' :: regName x
  | .ret => []
  | .jmp x => ' ' :: regName x
  | .jeq x => ' ' :: regName x
  | .jne x => ' ' :: regName x
  | .hlt => []

/-- The line of a well-formed instruction (R84). -/
def asmLine (i : Instr) : List Char := (mnemonicName i.mnemonic).toList ++ operandText i

/-- Split a line at blanks, leading and trailing ones too; a comma is a token of its own; a tab is no blank. `word` is the
token being read (DESIGN CHOICE, notes/assumptions/14.md). -/
def tokensFrom (word : List Char) : List Char → List (List Char)
  | [] => if word = [] then [] else [word]
  | c :: rest =>
    if c = ' ' then (if word = [] then tokensFrom [] rest else word :: tokensFrom [] rest)
    else if c = ',' then (if word = [] then [','] :: tokensFrom [] rest else word :: [','] :: tokensFrom [] rest)
    else tokensFrom (word ++ [c]) rest

/-- The value of one digit in a base, if it is one. A hexadecimal digit above 9 may be a small or a capital letter: R84 does
not say (DESIGN CHOICE, notes/assumptions/14.md). -/
def digitValue (base : Nat) (c : Char) : Option Nat :=
  let v :=
    if '0' ≤ c ∧ c ≤ '9' then c.toNat - '0'.toNat
    else if 'a' ≤ c ∧ c ≤ 'f' then c.toNat - 'a'.toNat + 10
    else if 'A' ≤ c ∧ c ≤ 'F' then c.toNat - 'A'.toNat + 10
    else base
  if v < base then some v else none

/-- Digits in a base, continuing from the value `acc`. Any number of leading zeros is read, in each base: R84 does not say
(DESIGN CHOICE, notes/assumptions/14.md). -/
def digitsValue (base acc : Nat) : List Char → Option Nat
  | [] => some acc
  | c :: rest =>
    match digitValue base c with
    | some d => digitsValue base (acc * base + d) rest
    | none => none

/-- A literal: decimal, `0x` or `0b` (R84), the letters `x` and `b` small as R84 prints them, at least one digit after them
(DESIGN CHOICE, notes/assumptions/14.md). -/
def literalValue : List Char → Option Nat
  | '0' :: 'x' :: d :: rest => digitsValue 16 0 (d :: rest)
  | '0' :: 'b' :: d :: rest => digitsValue 2 0 (d :: rest)
  | d :: rest => digitsValue 10 0 (d :: rest)
  | [] => none

/-- `imm`: a literal in 0..255 (R84). -/
def parseImm (t : List Char) : Option Immediate :=
  match literalValue t with
  | some v => if v < 256 then some (BitVec.ofNat 8 v) else none
  | none => none

/-- `R0` to `R7`, or `SP` for R7 (R84), in capitals (DESIGN CHOICE, notes/assumptions/14.md). -/
def parseReg : List Char → Option RegOperand
  | ['S', 'P'] => some 7
  | ['R', d] =>
    match digitValue 8 d with
    | some v => some (BitVec.ofNat 8 v)
    | none => none
  | _ => none

/-- The mnemonic a token spells, in capitals (DESIGN CHOICE, notes/assumptions/14.md). -/
def parseMnemonic (t : List Char) : Option Mnemonic :=
  allMnemonics.find? fun m => (mnemonicName m).toList == t

/-- The operands of a mnemonic, read from the tokens after it: `Rx, imm`, `Rx, Ry`, `Rx` or nothing (R84). -/
def parseOperands (m : Mnemonic) (ts : List (List Char)) : Option Instr :=
  match m.width, ts with
  | 1, [] => some (m.instr 0 0)
  | 2, [x] => (parseReg x).map fun rX => m.instr rX 0
  | 3, [x, [','], y] =>
    match parseReg x, (if m = .ldi then parseImm y else parseReg y) with
    | some rX, some v => some (m.instr rX v)
    | _, _ => none
  | _, _ => none

/-- Read one line (R84): one instruction and nothing else. A line with a trailing comment is refused, and so are an empty line
and one with a comment only: R84 says that 95_test_vectors.md writes labels in comments (there after `;`) and gives no
comment form for a line (DESIGN CHOICE, notes/assumptions/14.md). -/
def parseLine (line : List Char) : Option Instr :=
  match tokensFrom [] line with
  | t :: ts =>
    match parseMnemonic t with
    | some m => parseOperands m ts
    | none => none
  | [] => none

/-- Assemble one line: its opcode byte followed by its operand bytes in the written order (R84). -/
def assemble (o : Opcodes) (line : List Char) : Option (List Byte) := (parseLine line).map (encode o)

end Sys2Proof.Machine
end

