-- ==== Sys2Proof/Machine/Interface.lean ====
section
/-!
DEFINITION. The interface around the CORE: the loader contract, the signals of 10_state.md R35, the reset sequence of
70_reset_and_hazards.md R183, the output timing of R192 and the debug observation of 60_exceptions.md R170.

`step` is one edge with `rst` low. `Chip.edge` is one edge of any kind. The two facts a chip holds besides its CORE are
not CORE state (R34): whether `rst` was high at the previous edge, and the byte on the output port in this cycle
(notes/assumptions/9.md).
-/

namespace Sys2Proof.Machine

/-! ### The loader contract (R180, R184) -/

/-- The reset state of R180 for a program image `b`: byte `i` at address `i`, 0 in every other cell. An image longer
than 256 bytes is refused by name and nothing starts (R184, I13). -/
def loadImage (p : Params) (b : List Byte) : Host.Outcome State Fault Refusal :=
  if b.length ≤ memSize then
    .next { State.resetWith p with mem := (State.resetWith p).mem.writeBytes 0 b }
  else .refused (.imageTooLong b.length)

/-! ### Signals (R35) -/

/-- The inputs sampled at a rising edge of `clk`. -/
structure Inputs where
  rst : Bool
  ldWe : Bool
  ldAddr : Byte
  ldData : Byte
  deriving DecidableEq, Repr

/-- The debug observation (R170): pc, the three cells at it, the registers and the flags. -/
structure DebugView where
  pc : Byte
  m0 : Byte
  m1 : Byte
  m2 : Byte
  reg : Vector Byte 8
  flagL : Bool
  flagG : Bool
  flagE : Bool
  deriving DecidableEq, Repr

/-- The outputs driven during a cycle. `outPort` is `some v` when `out_valid` is high with `out_data = v`, and `none`
when `out_valid` is low: no value of `out_data` is given then (notes/assumptions/10.md). -/
structure Outputs where
  outPort : Option Byte
  halted : Bool
  fatal : Bool
  faultCause : BitVec 3
  faultPc : Byte
  dbg : DebugView
  deriving DecidableEq, Repr

/-- The CORE between two edges, with what its interface remembers. -/
structure Chip where
  /-- The CORE and its parameters. -/
  core : State
  /-- `rst` was high at the previous edge: a reset is being held (R183). -/
  inReset : Bool
  /-- The byte a PRN emitted at the previous edge, on the port for this one cycle (R192). -/
  outPort : Option Byte
  deriving DecidableEq, Repr

/-- The debug observation of a state (R170): it reads and changes nothing. -/
def State.debugView (s : State) : DebugView where
  pc := s.pc
  m0 := s.memRead s.pc
  m1 := s.memRead (s.pc + 1)
  m2 := s.memRead (s.pc + 2)
  reg := s.reg
  flagL := s.flagL
  flagG := s.flagG
  flagE := s.flagE

/-- The outputs of the cycle a chip is in (R35, R192): `halted`, `fatal` and the fault record are levels of the state. -/
def Chip.outputs (c : Chip) : Outputs where
  outPort := c.outPort
  halted := decide (c.core.run = .halted)
  fatal := decide (c.core.run = .fatal)
  faultCause := c.core.faultCause
  faultPc := c.core.faultPc
  dbg := c.core.debugView

/-- Power-up: every cell is 0 and the other state takes its reset value, as at the first edge of a reset, and a reset
counts as entered (R183 step 1; DEDUCED, notes/assumptions/9.md). -/
def Chip.powerUp (p : Params) : Chip where
  core := State.resetWith p
  inReset := true
  outPort := none

/-- The byte an edge emitted: the one by which the output stream grew (R92, R192). -/
def emitted (before after : State) : Option Byte := after.out[before.out.length]?

/-- An edge with `rst` high (R182, R183). The first one zeroes memory and ignores `ld_we`; a later one writes the host's
byte if `ld_we` is high. Both put every other piece of state at its reset value, whatever the run state was. -/
def Chip.resetEdge (c : Chip) (i : Inputs) : Chip where
  core :=
    if c.inReset then
      { State.resetWith c.core.params with
        mem := if i.ldWe then c.core.mem.write i.ldAddr i.ldData else c.core.mem }
    else State.resetWith c.core.params
  inReset := true
  outPort := none

/-- The chip after an edge with `rst` low at which its CORE stepped to `t`. -/
def Chip.afterStep (c : Chip) (t : State) : Chip where
  core := t
  inReset := false
  outPort := emitted c.core t

/-- One rising edge of `clk` (R183, R191). With `rst` low the CORE takes one step and `ld_we` is not honoured (R64). -/
def Chip.edge (c : Chip) (i : Inputs) : Host.Outcome Chip Fault Refusal :=
  if i.rst then .next (c.resetEdge i)
  else
    match step c.core with
    | .next t => .next (c.afterStep t)
    | .fault r => .fault r
    | .refused r => .refused r

/-- A sequence of edges. -/
def Chip.edges (c : Chip) : List Inputs → Host.Outcome Chip Fault Refusal
  | [] => .next c
  | i :: rest =>
    match c.edge i with
    | .next d => d.edges rest
    | .fault r => .fault r
    | .refused r => .refused r

/-- The bytes on the output port over the cycles that follow a sequence of edges, in order (R30: the output stream is the
sequence of `out_data` values over the cycles with `out_valid` high). -/
def Chip.portBytes (c : Chip) : List Inputs → List Byte
  | [] => []
  | i :: rest =>
    match c.edge i with
    | .next d => d.outPort.toList ++ d.portBytes rest
    | .fault _ => []
    | .refused _ => []

/-- The inputs of an edge that holds reset and loads nothing. -/
def resetInputs : Inputs := { rst := true, ldWe := false, ldAddr := 0, ldData := 0 }

/-- The inputs of an edge that loads one byte during reset (R183 step 2). -/
def loadInputs (a v : Byte) : Inputs := { rst := true, ldWe := true, ldAddr := a, ldData := v }

/-! ### The end of a run (R164, R188) -/

/-- The status the host reports for a state: 0 for Halted, 1 for Fatal whatever the cause, none while Running (R188). -/
def exitStatus (s : State) : Option Nat :=
  match s.run with
  | .running => none
  | .halted => some 0
  | .fatal => some 1

/-- The address the host's diagnostic of a Fatal run names (R188). -/
def diagnosticPc (s : State) : Option Byte :=
  match s.run with
  | .fatal => some s.faultPc
  | _ => none

end Sys2Proof.Machine
end

