-- ==== Sys2Proof/Safety.lean ====
section
/-!
DEFINITION. What counts as a safe run, in the terms the claims use: the state invariant, the end of a run
(60_exceptions.md R164), and the frame predicates that say what an instruction leaves alone.
-/

namespace Sys2Proof.Machine

/-! ### Invariant -/

/-- The fault record is what R28, R150 and R151 say of each run state: zero while the machine is not Fatal, and in Fatal
one of the causes that can be raised, BoundsViolation only with `STRICT_BOUNDS`, with the pc where the machine stopped. -/
abbrev State.faultRecordOk (s : State) : Prop :=
  if s.run = .fatal then
    s.faultPc = s.pc ∧
      (s.faultCause = FaultCause.code .unknownInstruction ∨ s.faultCause = FaultCause.code .invalidRegister ∨
        (s.faultCause = FaultCause.code .boundsViolation ∧ s.params.strictBounds = true))
  else s.faultCause = 0 ∧ s.faultPc = 0

/-- The invariant of the machine: memory in canonical form, the fault record in agreement with the run state, and a
binding of `OPC` that meets R73. -/
abbrev State.Inv (s : State) : Prop :=
  s.mem.wf ∧ s.faultRecordOk ∧ s.params.opc.wellFormed = true

/-! ### The end of a run (R164) -/

/-- A clean stop. -/
abbrev State.stoppedCleanly (s : State) : Prop := s.run = .halted

/-- A failure of the program: Fatal is never a clean stop (R164). -/
abbrev State.failed (s : State) : Prop := s.run = .fatal

/-! ### Frames -/

/-- Every register outside `rs` is unchanged. -/
def SameRegsBut (rs : List Reg) (s t : State) : Prop := ∀ r, r ∉ rs → t.getReg r = s.getReg r

/-- Every register is unchanged. -/
def SameRegs (s t : State) : Prop := ∀ r, t.getReg r = s.getReg r

/-- Every flag is unchanged. -/
def SameFlags (s t : State) : Prop := t.flagL = s.flagL ∧ t.flagG = s.flagG ∧ t.flagE = s.flagE

/-- Every byte of memory reads as before. -/
def SameMemory (s t : State) : Prop := ∀ a, t.memRead a = s.memRead a

/-- Every byte of memory but the one at `a` reads as before. -/
def SameMemoryBut (a : Byte) (s t : State) : Prop := ∀ b, b ≠ a → t.memRead b = s.memRead b

/-- The output stream is unchanged. -/
def SameOutput (s t : State) : Prop := t.out = s.out

/-- The fault record and the parameters are unchanged. -/
def SameRecord (s t : State) : Prop :=
  t.faultCause = s.faultCause ∧ t.faultPc = s.faultPc ∧ t.params = s.params

/-- The run state, the fault record and the parameters are unchanged. -/
def SameControl (s t : State) : Prop := t.run = s.run ∧ SameRecord s t

/-- `STRICT_BOUNDS` is on. -/
abbrev State.strict (s : State) : Prop := s.params.strictBounds = true

/-- What R151 says of entering Fatal: the run state and the fault record are written, and nothing else. -/
def EntersFatal (cause : FaultCause) (s t : State) : Prop :=
  t.run = .fatal ∧ t.faultCause = cause.code ∧ t.faultPc = s.pc ∧ t.pc = s.pc ∧
    SameRegs s t ∧ SameFlags s t ∧ SameMemory s t ∧ SameOutput s t ∧ t.params = s.params

/-! ### Sequences and variants the claims speak of -/

/-- The meanings of a list of instructions, one after another (no fetch). -/
def execSeq : List Instr → State → Host.Outcome State Fault Refusal
  | [], s => .next s
  | i :: rest, s =>
    match exec i s with
    | .next t => execSeq rest t
    | .fault r => .fault r
    | .refused r => .refused r

/-- The same machine with `STRICT_BOUNDS` set to `b`. -/
def State.withStrict (s : State) (b : Bool) : State :=
  { s with params := { s.params with strictBounds := b } }

/-- The instructions that do not set pc themselves (R81). -/
def advancesPc (m : Mnemonic) : Bool :=
  [Mnemonic.ldi, .prn, .add, .mul, .cmp, .pop, .push, .hlt].contains m

end Sys2Proof.Machine
end

