-- ==== Sys2Proof/Certificates/Slice0/Obligations.lean ====
section
/-!
DEFINITION. The statements for the provers. Each docstring names the rules of spec/ it rests on. The frame predicates
(`SameRegsBut`, `SameMemory`, …) and `EntersFatal` are in Safety.lean.

In the statements about one instruction, `x` is the operand byte and `rX` the register it names; an operand byte of 8 or
more is the subject of `InvalidRegisterOperandIsFatal`. With `STRICT_BOUNDS` the instruction's own bounds are the
hypotheses here and the subject of the `Strict…` statements. They hold whether register 7 (SP) is named or not.
-/

open Sys2Proof Sys2Proof.Machine

/-! ### What each instruction does, and its frame -/

/-- LDI (R91): completes with `imm` in the register; nothing else changes but pc, which advances by 3. -/
def Obligations.LdiWritesItsImmediate : Prop :=
  ∀ (x imm : Byte) (rX : Reg) (s : State), x.toNat = rX.val → ¬ (s.strict ∧ 255 < s.pc.toNat + 3) →
    ∃ t, exec (.ldi x imm) s = .next t ∧ t.getReg rX = imm ∧ t.pc = s.pc + 3 ∧
      SameRegsBut [rX] s t ∧ SameFlags s t ∧ SameMemory s t ∧ SameOutput s t ∧ SameControl s t

/-- PRN (R92): completes with the register's value appended to the output stream; nothing else changes but pc. -/
def Obligations.PrnEmitsTheRegister : Prop :=
  ∀ (x : Byte) (rX : Reg) (s : State), x.toNat = rX.val → ¬ (s.strict ∧ 255 < s.pc.toNat + 2) →
    ∃ t, exec (.prn x) s = .next t ∧ t.out = s.out ++ [s.getReg rX] ∧ t.pc = s.pc + 2 ∧
      SameRegs s t ∧ SameFlags s t ∧ SameMemory s t ∧ SameControl s t

/-- ADD (R100, R104): completes with the sum modulo 256 in the first register; no flag is written. -/
def Obligations.AddWritesTheSumModulo256 : Prop :=
  ∀ (x y : Byte) (rX rY : Reg) (s : State), x.toNat = rX.val → y.toNat = rY.val →
    ¬ (s.strict ∧ (255 < (s.getReg rX).toNat + (s.getReg rY).toNat ∨ 255 < s.pc.toNat + 3)) →
    ∃ t, exec (.add x y) s = .next t ∧
      (t.getReg rX).toNat = ((s.getReg rX).toNat + (s.getReg rY).toNat) % 256 ∧ t.pc = s.pc + 3 ∧
      SameRegsBut [rX] s t ∧ SameFlags s t ∧ SameMemory s t ∧ SameOutput s t ∧ SameControl s t

/-- MUL (R101, R104): completes with the product modulo 256 in the first register; no flag is written. -/
def Obligations.MulWritesTheProductModulo256 : Prop :=
  ∀ (x y : Byte) (rX rY : Reg) (s : State), x.toNat = rX.val → y.toNat = rY.val →
    ¬ (s.strict ∧ (255 < (s.getReg rX).toNat * (s.getReg rY).toNat ∨ 255 < s.pc.toNat + 3)) →
    ∃ t, exec (.mul x y) s = .next t ∧
      (t.getReg rX).toNat = ((s.getReg rX).toNat * (s.getReg rY).toNat) % 256 ∧ t.pc = s.pc + 3 ∧
      SameRegsBut [rX] s t ∧ SameFlags s t ∧ SameMemory s t ∧ SameOutput s t ∧ SameControl s t

/-- CMP (R102): completes with the flag of the unsigned order set and the other two as they were; no register and no
memory cell is written. -/
def Obligations.CmpSetsOneFlagAndKeepsTheOthers : Prop :=
  ∀ (x y : Byte) (rX rY : Reg) (s : State), x.toNat = rX.val → y.toNat = rY.val →
    ¬ (s.strict ∧ 255 < s.pc.toNat + 3) →
    ∃ t, exec (.cmp x y) s = .next t ∧ t.pc = s.pc + 3 ∧
      ((s.getReg rX).toNat < (s.getReg rY).toNat →
        t.flagL = true ∧ t.flagG = s.flagG ∧ t.flagE = s.flagE) ∧
      ((s.getReg rY).toNat < (s.getReg rX).toNat →
        t.flagL = s.flagL ∧ t.flagG = true ∧ t.flagE = s.flagE) ∧
      ((s.getReg rX).toNat = (s.getReg rY).toNat →
        t.flagL = s.flagL ∧ t.flagG = s.flagG ∧ t.flagE = true) ∧
      SameRegs s t ∧ SameMemory s t ∧ SameOutput s t ∧ SameControl s t

/-- POP (R110): completes with the byte at SP in the register and SP incremented after that write, so that `POP R7`
leaves the popped value plus one in SP. No cell changes. -/
def Obligations.PopReadsThenIncrementsSp : Prop :=
  ∀ (x : Byte) (rX : Reg) (s : State), x.toNat = rX.val →
    ¬ (s.strict ∧ (s.sp = 255 ∨ 255 < s.pc.toNat + 2)) →
    ∃ t, exec (.pop x) s = .next t ∧ t.pc = s.pc + 2 ∧
      (rX ≠ spIndex → t.getReg rX = s.memRead s.sp ∧ t.sp = s.sp + 1) ∧
      (rX = spIndex → t.sp = s.memRead s.sp + 1) ∧
      SameRegsBut [rX, spIndex] s t ∧ SameFlags s t ∧ SameMemory s t ∧ SameOutput s t ∧ SameControl s t

/-- PUSH (R111): completes with SP decremented and the register stored at the decremented SP, read after the decrement,
so that `PUSH R7` stores the decremented SP. Every other cell and register is unchanged. -/
def Obligations.PushStoresAtTheDecrementedSp : Prop :=
  ∀ (x : Byte) (rX : Reg) (s : State), x.toNat = rX.val →
    ¬ (s.strict ∧ (s.sp = 0 ∨ 255 < s.pc.toNat + 2)) →
    ∃ t, exec (.push x) s = .next t ∧ t.pc = s.pc + 2 ∧ t.sp = s.sp - 1 ∧
      t.memRead (s.sp - 1) = (if rX = spIndex then s.sp - 1 else s.getReg rX) ∧
      SameRegsBut [spIndex] s t ∧ SameFlags s t ∧ SameMemoryBut (s.sp - 1) s t ∧ SameOutput s t ∧ SameControl s t

/-- CALL (R120): completes with `pc +₈ 2` stored at the decremented SP and pc at the register's value, read after the
push, so that `CALL R7` goes to the decremented SP. Every other cell and register is unchanged. -/
def Obligations.CallPushesItsReturnAddress : Prop :=
  ∀ (x : Byte) (rX : Reg) (s : State), x.toNat = rX.val → ¬ (s.strict ∧ s.sp = 0) →
    ∃ t, exec (.call x) s = .next t ∧ t.sp = s.sp - 1 ∧ t.memRead (s.sp - 1) = s.pc + 2 ∧
      t.pc = (if rX = spIndex then s.sp - 1 else s.getReg rX) ∧
      SameRegsBut [spIndex] s t ∧ SameFlags s t ∧ SameMemoryBut (s.sp - 1) s t ∧ SameOutput s t ∧ SameControl s t

/-- RET (R121): completes with pc at the byte on top of the stack and SP incremented. No cell changes. -/
def Obligations.RetPopsThePc : Prop :=
  ∀ s : State, ¬ (s.strict ∧ s.sp = 255) →
    ∃ t, exec .ret s = .next t ∧ t.pc = s.memRead s.sp ∧ t.sp = s.sp + 1 ∧
      SameRegsBut [spIndex] s t ∧ SameFlags s t ∧ SameMemory s t ∧ SameOutput s t ∧ SameControl s t

/-- JMP (R122): completes with pc at the register's value, and nothing else changes. -/
def Obligations.JmpGoesToTheRegister : Prop :=
  ∀ (x : Byte) (rX : Reg) (s : State), x.toNat = rX.val →
    ∃ t, exec (.jmp x) s = .next t ∧ t.pc = s.getReg rX ∧
      SameRegs s t ∧ SameFlags s t ∧ SameMemory s t ∧ SameOutput s t ∧ SameControl s t

/-- JEQ (R123, R124): completes with pc at the register's value if E is 1 and at `pc +₈ 2` if E is 0, and nothing else
changes. -/
def Obligations.JeqFollowsE : Prop :=
  ∀ (x : Byte) (rX : Reg) (s : State), x.toNat = rX.val →
    ∃ t, exec (.jeq x) s = .next t ∧
      (s.flagE = true → t.pc = s.getReg rX) ∧ (s.flagE = false → t.pc = s.pc + 2) ∧
      SameRegs s t ∧ SameFlags s t ∧ SameMemory s t ∧ SameOutput s t ∧ SameControl s t

/-- JNE (R123, R125): completes with pc at the register's value if E is 0 and at `pc +₈ 2` if E is 1, and nothing else
changes. -/
def Obligations.JneFollowsE : Prop :=
  ∀ (x : Byte) (rX : Reg) (s : State), x.toNat = rX.val →
    ∃ t, exec (.jne x) s = .next t ∧
      (s.flagE = false → t.pc = s.getReg rX) ∧ (s.flagE = true → t.pc = s.pc + 2) ∧
      SameRegs s t ∧ SameFlags s t ∧ SameMemory s t ∧ SameOutput s t ∧ SameControl s t

/-- HLT (R140): completes in Halted with pc advanced by 1, and nothing else changes. -/
def Obligations.HltHaltsAndAdvances : Prop :=
  ∀ s : State, ¬ (s.strict ∧ 255 < s.pc.toNat + 1) →
    ∃ t, exec .hlt s = .next t ∧ t.run = .halted ∧ t.pc = s.pc + 1 ∧
      SameRegs s t ∧ SameFlags s t ∧ SameMemory s t ∧ SameOutput s t ∧ SameRecord s t

/-! ### Fatal errors: when, which cause, and that nothing else is written -/

/-- R79: an instruction one of whose register operands is 8 or more, whichever instruction and operand, and whether or
not its value would be used, enters Fatal with InvalidRegister, and so does the step that decodes it (under
`STRICT_BOUNDS`, where the earlier fetch bound of R155 is met); an instruction whose register operands are all in 0..7
never does, whatever its other bytes. -/
def Obligations.InvalidRegisterOperandIsFatal : Prop :=
  ∀ (i : Instr) (s : State),
    ((∃ x ∈ i.regOperands, 8 ≤ x.toNat) →
      (∃ t, exec i s = .next t ∧ EntersFatal .invalidRegister s t) ∧
      (s.run = .running → ¬ (s.strict ∧ 254 ≤ s.pc.toNat) → s.fetchDecode = .ok i →
        ∃ t, step s = .next t ∧ EntersFatal .invalidRegister s t)) ∧
    ((∀ x ∈ i.regOperands, x.toNat < 8) → s.run ≠ .fatal → ∀ t, exec i s = .next t → t.run = .fatal →
      t.faultCause ≠ FaultCause.code .invalidRegister)

/-- R78: in Running, an opcode byte that is no value of `OPC` enters Fatal with UnknownInstruction whatever the bytes
after it (under `STRICT_BOUNDS`, where the fetch bound of R155 is met); with the default binding those are 243 byte
values, 0x00 among them. -/
def Obligations.UnknownOpcodeIsFatal : Prop :=
  (∀ s : State, s.run = .running → ¬ (s.strict ∧ 254 ≤ s.pc.toNat) →
    (∀ m, s.params.opc.of m ≠ s.memRead s.pc) → ∃ t, step s = .next t ∧ EntersFatal .unknownInstruction s t) ∧
  ((List.range 256).countP fun n => (lookupOpcode defaultOpcodes (BitVec.ofNat 8 n)).isNone) = 243 ∧
  lookupOpcode defaultOpcodes 0 = none

/-- R155: with `STRICT_BOUNDS`, a step at pc 254 or 255 enters Fatal with BoundsViolation whatever is in memory. -/
def Obligations.StrictFetchBound : Prop :=
  ∀ s : State, s.run = .running → s.strict → 254 ≤ s.pc.toNat →
    ∃ t, step s = .next t ∧ EntersFatal .boundsViolation s t

/-- R156: with `STRICT_BOUNDS`, an instruction that advances pc by its width enters Fatal with BoundsViolation if that
carries pc past 255; once the fetch bound is met this is only a three-byte instruction at 253. -/
def Obligations.StrictAdvanceBound : Prop :=
  ∀ (i : Instr) (s : State), advancesPc i.mnemonic = true → i.wellFormed = true → s.strict →
    255 < s.pc.toNat + i.width →
    (∃ t, exec i s = .next t ∧ EntersFatal .boundsViolation s t) ∧
      (s.pc.toNat < 254 → i.width = 3 ∧ s.pc = 253)

/-- R157: with `STRICT_BOUNDS`, PUSH and CALL at SP = 0, and POP and RET at SP = 255, enter Fatal with
BoundsViolation. -/
def Obligations.StrictStackBounds : Prop :=
  ∀ (x : Byte) (s : State), s.strict → x.toNat < 8 →
    (s.sp = 0 → (∃ t, exec (.push x) s = .next t ∧ EntersFatal .boundsViolation s t) ∧
      ∃ t, exec (.call x) s = .next t ∧ EntersFatal .boundsViolation s t) ∧
    (s.sp = 255 → (∃ t, exec (.pop x) s = .next t ∧ EntersFatal .boundsViolation s t) ∧
      ∃ t, exec .ret s = .next t ∧ EntersFatal .boundsViolation s t)

/-- R158: with `STRICT_BOUNDS`, an ADD whose exact sum, and a MUL whose exact product, exceeds 255 enters Fatal with
BoundsViolation. -/
def Obligations.StrictArithmeticBounds : Prop :=
  ∀ (x y : Byte) (rX rY : Reg) (s : State), s.strict → x.toNat = rX.val → y.toNat = rY.val →
    (255 < (s.getReg rX).toNat + (s.getReg rY).toNat →
      ∃ t, exec (.add x y) s = .next t ∧ EntersFatal .boundsViolation s t) ∧
    (255 < (s.getReg rX).toNat * (s.getReg rY).toNat →
      ∃ t, exec (.mul x y) s = .next t ∧ EntersFatal .boundsViolation s t)

/-- R151, R152, R154: a step that enters Fatal writes the run state and the fault record, with the pc of the faulting
instruction, and nothing else; its cause is never UnsupportedOperation. -/
def Obligations.FatalStepWritesOnlyTheFaultRecord : Prop :=
  ∀ s t : State, s.run = .running → step s = .next t → t.run = .fatal →
    ∃ c : FaultCause, c ≠ .unsupportedOperation ∧
      t = { s with run := .fatal, faultCause := c.code, faultPc := s.pc }

/-- R80, R150, R159: a step that enters Fatal reports the code of the first failing check, in the order fetch bound (4),
opcode (1), register indices (3), the instruction's own bounds (4). -/
def Obligations.FirstFailingCheckGivesTheCause : Prop :=
  ∀ s t : State, s.run = .running → step s = .next t → t.run = .fatal →
    t.faultCause =
      if s.params.strictBounds = true ∧ 254 ≤ s.pc.toNat then 4
      else match s.fetchDecode with
        | .error _ => 1
        | .ok i => if i.wellFormed then 4 else 3

/-- R53, I1: without `STRICT_BOUNDS` no step enters Fatal with BoundsViolation, and no instruction with good register
indices enters Fatal at all. -/
def Obligations.WithoutStrictBoundsNothingGoesOutOfBounds : Prop :=
  ∀ s : State, ¬ s.strict → s.run = .running →
    (∀ t, step s = .next t → t.run = .fatal → t.faultCause ≠ FaultCause.code .boundsViolation) ∧
    (∀ i t, i.wellFormed = true → exec i s = .next t → t.run ≠ .fatal)

/-! ### The step -/

/-- R82: in Running, with the fetch bound met, a step is the meaning of the instruction its three fetched bytes decode
to. (The meaning checks the register indices and its own bounds.) -/
def Obligations.StepRunsTheDecodedInstruction : Prop :=
  ∀ (s : State) (i : Instr), s.run = .running → ¬ (s.strict ∧ 254 ≤ s.pc.toNat) →
    decode s.params.opc (s.memRead s.pc) (s.memRead (s.pc + 1)) (s.memRead (s.pc + 2)) = .ok i →
    step s = exec i s

/-- R82, R191: every state has a next state; the model never stops with a fault or a refusal. -/
def Obligations.EveryStepAnswersANextState : Prop :=
  ∀ s : State, ∃ t, step s = .next t

/-- R27, R169, R182: once Halted or Fatal, no number of steps changes anything, and no sequence of edges without reset
changes the CORE. -/
def Obligations.StoppedStatesAbsorb : Prop :=
  (∀ (k : Nat) (s : State), s.run ≠ .running → Host.Core.run core k s = .next s) ∧
  (∀ (c : Chip) (is : List Inputs), c.core.run ≠ .running → (∀ i ∈ is, i.rst = false) →
    ∃ d, c.edges is = .next d ∧ d.core = c.core)

/-- R27, R140: a step from Running ends in Halted only by a HLT. -/
def Obligations.OnlyHltHalts : Prop :=
  ∀ s t : State, s.run = .running → step s = .next t → t.run = .halted → s.fetchDecode = .ok .hlt

/-- R34: no step changes the parameters. (They are a field of State by the model's choice, notes/assumptions/1.md.) -/
def Obligations.ParametersAreFixedForARun : Prop :=
  ∀ (k : Nat) (s t : State), Host.Core.run core k s = .next t → t.params = s.params

/-- R81: each of the eight instructions that do not set pc themselves, unless it enters Fatal, ends with pc advanced by
its width modulo 256. -/
def Obligations.PcAdvancesByTheWidth : Prop :=
  ∀ (i : Instr) (s t : State), advancesPc i.mnemonic = true → s.run ≠ .fatal → exec i s = .next t → t.run ≠ .fatal →
    t.pc.toNat = (s.pc.toNat + i.width) % 256

/-- R24, R156: with `STRICT_BOUNDS` that advance never wraps. -/
def Obligations.StrictAdvanceNeverWraps : Prop :=
  ∀ (i : Instr) (s t : State), s.strict → advancesPc i.mnemonic = true → s.run ≠ .fatal → exec i s = .next t →
    t.run ≠ .fatal → t.pc.toNat = s.pc.toNat + i.width

/-! ### Whole-machine frames -/

/-- R25, R123: a flag, once set, stays set over any run. -/
def Obligations.FlagsAreSticky : Prop :=
  ∀ (k : Nat) (s t : State), Host.Core.run core k s = .next t →
    (s.flagL = true → t.flagL = true) ∧ (s.flagG = true → t.flagG = true) ∧ (s.flagE = true → t.flagE = true)

/-- R25: no instruction but CMP writes a flag. -/
def Obligations.OnlyCmpWritesFlags : Prop :=
  ∀ (i : Instr) (s t : State), i.mnemonic ≠ .cmp → exec i s = .next t → SameFlags s t

/-- R25: nothing reads L or G. Two states that differ only in L and G step to states that differ only in L and G. -/
def Obligations.LAndGAreNeverRead : Prop :=
  ∀ (s t : State) (l g : Bool), step s = .next t →
    ∃ l' g', step { s with flagL := l, flagG := g } = .next { t with flagL := l', flagG := g' }

/-- R30, R76: only PRN adds to the output stream; over a run of k steps the stream only grows at its end, by at most k
bytes. -/
def Obligations.OutputOnlyGrowsAndOnlyByPrn : Prop :=
  (∀ (i : Instr) (s t : State), i.mnemonic ≠ .prn → exec i s = .next t → t.out = s.out) ∧
  (∀ (k : Nat) (s t : State), Host.Core.run core k s = .next t → ∃ bs, t.out = s.out ++ bs ∧ bs.length ≤ k)

/-- R50, R76: only PUSH and CALL write memory, and only the cell just below SP. -/
def Obligations.OnlyPushAndCallStore : Prop :=
  ∀ (i : Instr) (s t : State), exec i s = .next t →
    SameMemoryBut (s.sp - 1) s t ∧ (i.mnemonic ≠ .push → i.mnemonic ≠ .call → t.mem = s.mem)

/-- R21, R22, R76: a register changes only if an operand names it, or if it is SP and the instruction is PUSH, POP, CALL
or RET. -/
def Obligations.OnlyNamedRegistersChange : Prop :=
  ∀ (i : Instr) (s t : State) (r : Reg), exec i s = .next t → (∀ x ∈ i.regOperands, x.toNat ≠ r.val) →
    (r = spIndex → i.mnemonic ≠ .push ∧ i.mnemonic ≠ .pop ∧ i.mnemonic ≠ .call ∧ i.mnemonic ≠ .ret) →
    t.getReg r = s.getReg r

/-! ### Laws of the instruction set -/

/-- R111: PUSH r then POP r2, with neither register 7, gives r2 the value r had, brings SP back and leaves every other
register alone; the pushed cell keeps the value. -/
def Obligations.PushThenPopCopiesTheRegister : Prop :=
  ∀ (x y : Byte) (r r2 : Reg) (s : State), x.toNat = r.val → y.toNat = r2.val → r ≠ spIndex → r2 ≠ spIndex →
    ¬ (s.strict ∧ (s.sp = 0 ∨ 255 < s.pc.toNat + 4)) →
    ∃ t, execSeq [.push x, .pop y] s = .next t ∧ t.getReg r2 = s.getReg r ∧ t.sp = s.sp ∧ t.pc = s.pc + 4 ∧
      SameRegsBut [r2] s t ∧ t.memRead (s.sp - 1) = s.getReg r ∧ SameMemoryBut (s.sp - 1) s t

/-- R120, R121: CALL to a subroutine that is only a RET comes back to `pc +₈ 2` with every register, SP among them, as
before. -/
def Obligations.CallThenRetResumesAfterTheCall : Prop :=
  ∀ (x : Byte) (rX : Reg) (s : State), x.toNat = rX.val → ¬ (s.strict ∧ s.sp = 0) →
    ∃ t, execSeq [.call x, .ret] s = .next t ∧ t.pc = s.pc + 2 ∧ SameRegs s t ∧ SameMemoryBut (s.sp - 1) s t

/-- R100, W5: ADD and MUL are commutative in value: with the operands exchanged, the same result stands in the other
register and the register that is not the destination keeps its value. -/
def Obligations.AddAndMulCommute : Prop :=
  ∀ (x y : Byte) (rX rY : Reg) (s : State), x.toNat = rX.val → y.toNat = rY.val → rX ≠ rY →
    (∀ t u, exec (.add x y) s = .next t → exec (.add y x) s = .next u → t.run = .running → u.run = .running →
      t.getReg rX = u.getReg rY ∧ t.getReg rY = s.getReg rY ∧ u.getReg rX = s.getReg rX) ∧
    (∀ t u, exec (.mul x y) s = .next t → exec (.mul y x) s = .next u → t.run = .running → u.run = .running →
      t.getReg rX = u.getReg rY ∧ t.getReg rY = s.getReg rY ∧ u.getReg rX = s.getReg rX)

/-- R112: from an empty stack (SP = 255), k pushes leave SP = 255 − k and the pushed bytes at 254 down to 255 − k, the
first one highest. -/
def Obligations.PushesFillTheStackDownward : Prop :=
  ∀ (rs : List Reg) (s : State), (∀ r ∈ rs, r ≠ spIndex) → rs.length ≤ 255 → s.sp = 255 →
    ¬ (s.strict ∧ 255 < s.pc.toNat + 2 * rs.length) →
    ∃ t, execSeq (rs.map fun r => .push (BitVec.ofNat 8 r.val)) s = .next t ∧
      t.sp.toNat = 255 - rs.length ∧
      ∀ (j : Nat) (h : j < rs.length), t.memRead (BitVec.ofNat 8 (254 - j)) = s.getReg rs[j]

/-- R57: a byte that PUSH stores where the next fetch reads is the opcode the next step decodes. -/
def Obligations.StoredByteIsFetchedByTheNextStep : Prop :=
  ∀ (x : Byte) (rX : Reg) (s : State), x.toNat = rX.val → rX ≠ spIndex →
    ¬ (s.strict ∧ (s.sp = 0 ∨ 255 < s.pc.toNat + 2)) → s.sp - 1 = s.pc + 2 →
    ∃ t, exec (.push x) s = .next t ∧
      t.fetchDecode = decode s.params.opc (s.getReg rX) (s.memRead (s.pc + 3)) (s.memRead (s.pc + 4))

/-! ### Encoding -/

/-- R70, R72, R75: for every binding that meets R73, the encoding of an instruction decodes to it, whatever bytes follow
it in memory. No operand value is excluded. -/
def Obligations.DecodeOfEncode : Prop :=
  ∀ (o : Opcodes) (i : Instr) (tail : List Byte), o.wellFormed = true →
    decode o ((encode o i ++ tail).getD 0 0) ((encode o i ++ tail).getD 1 0) ((encode o i ++ tail).getD 2 0) = .ok i

/-- R70, R75: what decodes to an instruction is its encoding, followed by bytes that are not part of it. With
`DecodeOfEncode`, each instruction has one encoding. -/
def Obligations.EncodeOfDecode : Prop :=
  ∀ (o : Opcodes) (op x y : Byte) (i : Instr), decode o op x y = .ok i → encode o i = [op, x, y].take i.width

/-- R73: the default binding has thirteen distinct values, none 0x00; and in it, opcode bits 7:6 are the width less one,
bit 5 is set exactly for ADD, MUL and CMP, and bit 4 exactly for CALL, RET, JMP, JEQ and JNE. R73 marks both facts as
derived from R72, and the bytes themselves are PRESUMED (notes/assumptions/2.md). -/
def Obligations.DefaultBindingMeetsItsConstraints : Prop :=
  defaultOpcodes.wellFormed = true ∧
  ∀ m ∈ allMnemonics,
    (defaultOpcodes.of m).toNat / 64 + 1 = m.width ∧
    ((defaultOpcodes.of m).getLsbD 5 = true ↔ m ∈ [Mnemonic.add, .mul, .cmp]) ∧
    ((defaultOpcodes.of m).getLsbD 4 = true ↔ m ∈ [Mnemonic.call, .ret, .jmp, .jeq, .jne])

/-- R72 and the examples of R91 to R140, bit by bit: one word of each family decodes to the instruction it stands for. -/
def Obligations.WordsOfTheSpecDecode : Prop :=
  decode defaultOpcodes 0b10000010 0b00000000 0b00001000 = .ok (.ldi 0 8) ∧
  decode defaultOpcodes 0b01000111 0b00000101 0 = .ok (.prn 5) ∧
  decode defaultOpcodes 0b10100000 0b00000000 0b00000001 = .ok (.add 0 1) ∧
  decode defaultOpcodes 0b10100111 0b00000111 0b00000000 = .ok (.cmp 7 0) ∧
  decode defaultOpcodes 0b01000110 0b00000010 0 = .ok (.pop 2) ∧
  decode defaultOpcodes 0b01010000 0b00000001 0 = .ok (.call 1) ∧
  decode defaultOpcodes 0b01010110 0b00000011 0 = .ok (.jne 3) ∧
  decode defaultOpcodes 0b00000001 0 0 = .ok .hlt ∧
  decode defaultOpcodes 0b00000000 0 0 = .error (.unknownInstruction 0)

/-- R84: the line of a well-formed instruction assembles to its encoding, for any binding. (The layout of a line is the
model's choice, notes/assumptions/14.md.) -/
def Obligations.AssembledLineIsTheEncoding : Prop :=
  ∀ (o : Opcodes) (i : Instr), i.wellFormed = true → assemble o (asmLine i) = some (encode o i)

/-! ### Reset, load and the interface -/

/-- R180, R181: the reset state of an image of at most 256 bytes. -/
def Obligations.ResetStateOfAnImage : Prop :=
  ∀ (p : Params) (b : List Byte), b.length ≤ 256 →
    ∃ t, loadImage p b = .next t ∧ (∀ r : Reg, r ≠ spIndex → t.getReg r = 0) ∧ t.sp = 255 ∧ t.pc = 0 ∧
      t.flagL = false ∧ t.flagG = false ∧ t.flagE = false ∧ t.run = .running ∧ t.faultCause = 0 ∧ t.faultPc = 0 ∧
      t.out = [] ∧ t.params = p ∧ ∀ a : Byte, t.memRead a = b.getD a.toNat 0

/-- R184, I13: an image longer than 256 bytes is refused, and the empty image faults at address 0 with
UnknownInstruction at the first step. -/
def Obligations.LoaderContractAtItsEnds : Prop :=
  (∀ (p : Params) (b : List Byte), 256 < b.length → loadImage p b = .refused (.imageTooLong b.length)) ∧
  (∀ p : Params, p.opc.wellFormed = true →
    ∃ s t, loadImage p [] = .next s ∧ step s = .next t ∧ EntersFatal .unknownInstruction s t ∧ t.faultPc = 0)

/-- R28, R73, R180: the invariant (memory canonical, fault record in agreement with the run state, binding valid) holds at
`State.reset`. The canonical form of memory is the model's choice (notes/assumptions/7.md), and so are the parameters of
`State.reset`: the PRESUMED default binding (notes/assumptions/2.md) and `STRICT_BOUNDS` false (notes/assumptions/3.md).
`LoadedImagesMeetTheInvariant` says it for every valid binding, either bound mode and every image. -/
def Obligations.ResetMeetsTheInvariant : Prop := State.reset.Inv

/-- R28, R73, R150, R151: every step keeps the invariant. Its clause that memory stays in canonical form is the model's
choice and no rule of the spec (notes/assumptions/7.md); its other clauses rest on the rules named. -/
def Obligations.StepKeepsTheInvariant : Prop :=
  ∀ s t : State, s.Inv → step s = .next t → t.Inv

/-- Two memories in canonical form that read alike are equal (the model's form of memory, notes/assumptions/7.md). -/
def Obligations.CanonicalMemoriesThatReadAlikeAreEqual : Prop :=
  ∀ m n : Memory, m.wf → n.wf → (∀ a, m.read a = n.read a) → m = n

/-- R182, R183: an edge with `rst` high puts every piece of state but memory at its reset value, whatever the run state
was; the first such edge zeroes memory and ignores `ld_we`, a later one writes the host's byte if `ld_we` is high and
nothing else. -/
def Obligations.ResetEdgeFromAnyState : Prop :=
  ∀ (c : Chip) (i : Inputs), i.rst = true →
    ∃ d, c.edge i = .next d ∧ d.inReset = true ∧ d.outPort = none ∧
      { d.core with mem := State.reset.mem } = State.resetWith c.core.params ∧
      (c.inReset = false → ∀ a, d.core.memRead a = 0) ∧
      (c.inReset = true → ∀ a,
        d.core.memRead a = if i.ldWe = true ∧ a = i.ldAddr then i.ldData else c.core.memRead a)

/-- R183, R184: from any chip that is not in reset, a first reset edge and then one load edge per byte of an image, in
any order, leave exactly the reset state of that image; so do the load edges alone after power-up (the model's reading of
power-up, notes/assumptions/9.md); and the first edge with `rst` low then executes the instruction at address 0 of it. -/
def Obligations.ResetSequenceLoadsTheImage : Prop :=
  ∀ (c : Chip) (first : Inputs) (b : List Byte) (order : List Nat), c.inReset = false → first.rst = true →
    b.length ≤ 256 → order.Perm (List.range b.length) →
    ∃ s d d', loadImage c.core.params b = .next s ∧
      c.edges (first :: order.map fun n => loadInputs (BitVec.ofNat 8 n) (b.getD n 0)) = .next d ∧
      (Chip.powerUp c.core.params).edges (order.map fun n => loadInputs (BitVec.ofNat 8 n) (b.getD n 0)) = .next d' ∧
      d' = d ∧ d.core = s ∧ d.inReset = true ∧ s.pc = 0 ∧
      ∀ (i : Inputs) (t : State), i.rst = false → step s = .next t → ∃ e, d.edge i = .next e ∧ e.core = t

/-- R30, R35, R192: over any sequence of edges without reset, the bytes on the output port, in order, are exactly what
the output stream gained. -/
def Obligations.OutputPortCarriesTheStream : Prop :=
  ∀ (c : Chip) (is : List Inputs), (∀ i ∈ is, i.rst = false) →
    ∃ d, c.edges is = .next d ∧ d.core.out = c.core.out ++ c.portBytes is

/-- R92, R192: in the cycle after an edge without reset, the port holds a byte exactly if that edge emitted it, and
`halted` and `fatal` are the levels of the run state. -/
def Obligations.OutputsAfterAnEdge : Prop :=
  ∀ (c : Chip) (i : Inputs), i.rst = false →
    ∃ d, c.edge i = .next d ∧ step c.core = .next d.core ∧
      (∀ v, d.outputs.outPort = some v ↔ d.core.out = c.core.out ++ [v]) ∧
      (d.outputs.halted = true ↔ d.core.run = .halted) ∧ (d.outputs.fatal = true ↔ d.core.run = .fatal) ∧
      d.outputs.faultCause = d.core.faultCause ∧ d.outputs.faultPc = d.core.faultPc

/-- R170: the debug observation is pc, the three cells at pc, the registers and the flags. -/
def Obligations.DebugObservationShowsTheState : Prop :=
  ∀ c : Chip,
    c.outputs.dbg.pc = c.core.pc ∧ c.outputs.dbg.m0 = c.core.memRead c.core.pc ∧
    c.outputs.dbg.m1 = c.core.memRead (c.core.pc + 1) ∧ c.outputs.dbg.m2 = c.core.memRead (c.core.pc + 2) ∧
    (∀ r : Reg, c.outputs.dbg.reg[r] = c.core.getReg r) ∧ c.outputs.dbg.flagL = c.core.flagL ∧
    c.outputs.dbg.flagG = c.core.flagG ∧ c.outputs.dbg.flagE = c.core.flagE

/-- R164, R188: a run has an exit status exactly when it has ended: 0 for a clean stop, 1 for a Fatal one, whose
diagnostic names the fault record's pc. -/
def Obligations.ExitStatusOfAnEndedRun : Prop :=
  ∀ s : State, (exitStatus s = some 0 ↔ s.stoppedCleanly) ∧ (exitStatus s = some 1 ↔ s.failed) ∧
    (exitStatus s = none ↔ s.run = .running) ∧ (s.failed → diagnosticPc s = some s.faultPc)

/-! ### Headline: the strict machine refines the default one -/

/-- D4, R53, R155 to R158: a run of the machine with `STRICT_BOUNDS` that does not end in Fatal is, step for step, a run
of the machine without it: the same registers, memory, flags and output. -/
def Obligations.StrictRunsAreDefaultRuns : Prop :=
  ∀ (k : Nat) (s t : State), s.strict → Host.Core.run core k s = .next t → t.run ≠ .fatal →
    Host.Core.run core k (s.withStrict false) = .next (t.withStrict false)

/-! ### The invariant at the start of every run -/

/-- R28, R73, R180: the reset state of every image of at most 256 bytes, with every valid binding and either value of
`STRICT_BOUNDS`, meets the invariant; the empty image is `State.resetWith p`. The canonical form of memory is the model's
choice (notes/assumptions/7.md). -/
def Obligations.LoadedImagesMeetTheInvariant : Prop :=
  ∀ (p : Params) (b : List Byte), p.opc.wellFormed = true → b.length ≤ 256 →
    (State.resetWith p).Inv ∧ ∃ t, loadImage p b = .next t ∧ t.Inv
end

