-- ==== Sys2Proof/Laws/Decode.lean ====
section
/-!
SUPPORT. The lemmas of the opcode lookup, for any binding.
-/

namespace Sys2Proof

theorem mem_allMnemonics (m : Mnemonic) : m ∈ allMnemonics := by cases m <;> decide

theorem Opcodes.toList_eq (o : Opcodes) : o.toList = allMnemonics.map o.of := rfl

/-- A byte the lookup finds is the opcode of what it finds (R75). -/
theorem of_lookupOpcode {o : Opcodes} {op : Byte} {m : Mnemonic} (h : lookupOpcode o op = some m) : o.of m = op := by
  simpa using List.find?_some h

/-- The lookup finds nothing exactly when the byte is no opcode of the binding (R78). -/
theorem lookupOpcode_eq_none {o : Opcodes} {op : Byte} : lookupOpcode o op = none ↔ ∀ m, o.of m ≠ op := by
  simp only [lookupOpcode, List.find?_eq_none, beq_iff_eq]
  exact ⟨fun h m => h m (mem_allMnemonics m), fun h m _ => h m⟩

theorem Opcodes.nodup {o : Opcodes} (h : o.wellFormed = true) : (allMnemonics.map o.of).Nodup := by
  simp only [Opcodes.wellFormed, Bool.and_eq_true, decide_eq_true_eq] at h
  exact h.1

/-- In a binding that meets R73 two mnemonics never share an opcode. -/
theorem Opcodes.of_injective {o : Opcodes} (h : o.wellFormed = true) {m n : Mnemonic} (e : o.of m = o.of n) : m = n :=
  List.inj_on_of_nodup_map (Opcodes.nodup h) (mem_allMnemonics m) (mem_allMnemonics n) e

/-- In a binding that meets R73 the lookup of a mnemonic's opcode finds that mnemonic. -/
theorem lookupOpcode_of {o : Opcodes} (h : o.wellFormed = true) (m : Mnemonic) : lookupOpcode o (o.of m) = some m := by
  cases e : lookupOpcode o (o.of m) with
  | none => exact absurd rfl (lookupOpcode_eq_none.mp e m)
  | some n => rw [Opcodes.of_injective h (of_lookupOpcode e)]

@[simp] theorem instr_mnemonic (m : Mnemonic) (x y : Byte) : (m.instr x y).mnemonic = m := by cases m <;> rfl

/-- The two answers of the decoder. -/
theorem decode_ok_iff {o : Opcodes} {op x y : Byte} {i : Instr} :
    decode o op x y = .ok i ↔ ∃ m, lookupOpcode o op = some m ∧ i = m.instr x y := by
  unfold decode
  cases lookupOpcode o op with
  | none => simp
  | some m =>
    constructor
    · intro h; injection h with h; exact ⟨m, rfl, h.symm⟩
    · rintro ⟨n, hn, rfl⟩; injection hn with hn; rw [hn]

theorem decode_of_lookup_none {o : Opcodes} {op : Byte} (h : lookupOpcode o op = none) (x y : Byte) :
    decode o op x y = .error (.unknownInstruction op) := by
  simp only [decode, h]

end Sys2Proof
end

