-- ==== Sys2Proof/Laws/State.lean ====
section
/-!
SUPPORT. One lemma per field per update: what each operation of Machine/Ops.lean leaves in each field of State, and the
derived operations in terms of the primitive ones. With these no proof unfolds a record update.
-/

namespace Sys2Proof.Machine

variable (s : State)

/-! ### Derived operations -/

@[simp] theorem sp_eq : s.sp = s.getReg spIndex := rfl
@[simp] theorem setSp_eq (v : Byte) : s.setSp v = s.setReg spIndex v := rfl
@[simp] theorem advance_eq (n : Nat) : s.advance n = s.setPc (s.pc + BitVec.ofNat 8 n) := rfl
@[simp] theorem growStack_eq : s.growStack = s.setReg spIndex (s.getReg spIndex - 1) := rfl
@[simp] theorem shrinkStack_eq : s.shrinkStack = s.setReg spIndex (s.getReg spIndex + 1) := rfl
@[simp] theorem storeTop_eq (v : Byte) : s.storeTop v = s.memWrite (s.getReg spIndex) v := rfl
@[simp] theorem readTop_eq : s.readTop = s.memRead (s.getReg spIndex) := rfl

/-! ### Written fields -/

theorem getReg_setReg (r q : Reg) (v : Byte) : (s.setReg r v).getReg q = if r = q then v else s.getReg q := by
  simp [State.setReg, State.getReg, Vector.getElem_set, Fin.ext_iff]

@[simp] theorem getReg_setReg_self (r : Reg) (v : Byte) : (s.setReg r v).getReg r = v := by
  simp [getReg_setReg]

theorem getReg_setReg_ne {r q : Reg} (h : r ≠ q) (v : Byte) : (s.setReg r v).getReg q = s.getReg q := by
  simp [getReg_setReg, h]

@[simp] theorem setPc_pc (a : Byte) : (s.setPc a).pc = a := rfl
@[simp] theorem emit_out (v : Byte) : (s.emit v).out = s.out ++ [v] := rfl
@[simp] theorem halt_run : s.halt.run = .halted := rfl
@[simp] theorem memWrite_mem (a v : Byte) : (s.memWrite a v).mem = s.mem.write a v := rfl
@[simp] theorem raiseFatal_run (c : FaultCause) : (s.raiseFatal c).run = .fatal := rfl
@[simp] theorem raiseFatal_faultCause (c : FaultCause) : (s.raiseFatal c).faultCause = c.code := rfl
@[simp] theorem raiseFatal_faultPc (c : FaultCause) : (s.raiseFatal c).faultPc = s.pc := rfl

/-! ### What `setReg` leaves alone -/

@[simp] theorem setReg_pc (r : Reg) (v : Byte) : (s.setReg r v).pc = s.pc := rfl
@[simp] theorem setReg_flagL (r : Reg) (v : Byte) : (s.setReg r v).flagL = s.flagL := rfl
@[simp] theorem setReg_flagG (r : Reg) (v : Byte) : (s.setReg r v).flagG = s.flagG := rfl
@[simp] theorem setReg_flagE (r : Reg) (v : Byte) : (s.setReg r v).flagE = s.flagE := rfl
@[simp] theorem setReg_mem (r : Reg) (v : Byte) : (s.setReg r v).mem = s.mem := rfl
@[simp] theorem setReg_run (r : Reg) (v : Byte) : (s.setReg r v).run = s.run := rfl
@[simp] theorem setReg_faultCause (r : Reg) (v : Byte) : (s.setReg r v).faultCause = s.faultCause := rfl
@[simp] theorem setReg_faultPc (r : Reg) (v : Byte) : (s.setReg r v).faultPc = s.faultPc := rfl
@[simp] theorem setReg_out (r : Reg) (v : Byte) : (s.setReg r v).out = s.out := rfl
@[simp] theorem setReg_params (r : Reg) (v : Byte) : (s.setReg r v).params = s.params := rfl
@[simp] theorem setReg_memRead (r : Reg) (v : Byte) (a : Byte) : (s.setReg r v).memRead a = s.memRead a := rfl

/-! ### What `setPc` leaves alone -/

@[simp] theorem setPc_reg (a : Byte) : (s.setPc a).reg = s.reg := rfl
@[simp] theorem setPc_flagL (a : Byte) : (s.setPc a).flagL = s.flagL := rfl
@[simp] theorem setPc_flagG (a : Byte) : (s.setPc a).flagG = s.flagG := rfl
@[simp] theorem setPc_flagE (a : Byte) : (s.setPc a).flagE = s.flagE := rfl
@[simp] theorem setPc_mem (a : Byte) : (s.setPc a).mem = s.mem := rfl
@[simp] theorem setPc_run (a : Byte) : (s.setPc a).run = s.run := rfl
@[simp] theorem setPc_faultCause (a : Byte) : (s.setPc a).faultCause = s.faultCause := rfl
@[simp] theorem setPc_faultPc (a : Byte) : (s.setPc a).faultPc = s.faultPc := rfl
@[simp] theorem setPc_out (a : Byte) : (s.setPc a).out = s.out := rfl
@[simp] theorem setPc_params (a : Byte) : (s.setPc a).params = s.params := rfl
@[simp] theorem setPc_getReg (a : Byte) (r : Reg) : (s.setPc a).getReg r = s.getReg r := rfl
@[simp] theorem setPc_memRead (b : Byte) (a : Byte) : (s.setPc b).memRead a = s.memRead a := rfl

/-! ### What `emit` leaves alone -/

@[simp] theorem emit_reg (v : Byte) : (s.emit v).reg = s.reg := rfl
@[simp] theorem emit_pc (v : Byte) : (s.emit v).pc = s.pc := rfl
@[simp] theorem emit_flagL (v : Byte) : (s.emit v).flagL = s.flagL := rfl
@[simp] theorem emit_flagG (v : Byte) : (s.emit v).flagG = s.flagG := rfl
@[simp] theorem emit_flagE (v : Byte) : (s.emit v).flagE = s.flagE := rfl
@[simp] theorem emit_mem (v : Byte) : (s.emit v).mem = s.mem := rfl
@[simp] theorem emit_run (v : Byte) : (s.emit v).run = s.run := rfl
@[simp] theorem emit_faultCause (v : Byte) : (s.emit v).faultCause = s.faultCause := rfl
@[simp] theorem emit_faultPc (v : Byte) : (s.emit v).faultPc = s.faultPc := rfl
@[simp] theorem emit_params (v : Byte) : (s.emit v).params = s.params := rfl
@[simp] theorem emit_getReg (v : Byte) (r : Reg) : (s.emit v).getReg r = s.getReg r := rfl
@[simp] theorem emit_memRead (v : Byte) (a : Byte) : (s.emit v).memRead a = s.memRead a := rfl

/-! ### What `halt` leaves alone -/

@[simp] theorem halt_reg : s.halt.reg = s.reg := rfl
@[simp] theorem halt_pc : s.halt.pc = s.pc := rfl
@[simp] theorem halt_flagL : s.halt.flagL = s.flagL := rfl
@[simp] theorem halt_flagG : s.halt.flagG = s.flagG := rfl
@[simp] theorem halt_flagE : s.halt.flagE = s.flagE := rfl
@[simp] theorem halt_mem : s.halt.mem = s.mem := rfl
@[simp] theorem halt_faultCause : s.halt.faultCause = s.faultCause := rfl
@[simp] theorem halt_faultPc : s.halt.faultPc = s.faultPc := rfl
@[simp] theorem halt_out : s.halt.out = s.out := rfl
@[simp] theorem halt_params : s.halt.params = s.params := rfl
@[simp] theorem halt_getReg (r : Reg) : s.halt.getReg r = s.getReg r := rfl
@[simp] theorem halt_memRead (a : Byte) : s.halt.memRead a = s.memRead a := rfl

/-! ### What `memWrite` leaves alone -/

@[simp] theorem memWrite_reg (a v : Byte) : (s.memWrite a v).reg = s.reg := rfl
@[simp] theorem memWrite_pc (a v : Byte) : (s.memWrite a v).pc = s.pc := rfl
@[simp] theorem memWrite_flagL (a v : Byte) : (s.memWrite a v).flagL = s.flagL := rfl
@[simp] theorem memWrite_flagG (a v : Byte) : (s.memWrite a v).flagG = s.flagG := rfl
@[simp] theorem memWrite_flagE (a v : Byte) : (s.memWrite a v).flagE = s.flagE := rfl
@[simp] theorem memWrite_run (a v : Byte) : (s.memWrite a v).run = s.run := rfl
@[simp] theorem memWrite_faultCause (a v : Byte) : (s.memWrite a v).faultCause = s.faultCause := rfl
@[simp] theorem memWrite_faultPc (a v : Byte) : (s.memWrite a v).faultPc = s.faultPc := rfl
@[simp] theorem memWrite_out (a v : Byte) : (s.memWrite a v).out = s.out := rfl
@[simp] theorem memWrite_params (a v : Byte) : (s.memWrite a v).params = s.params := rfl
@[simp] theorem memWrite_getReg (a v : Byte) (r : Reg) : (s.memWrite a v).getReg r = s.getReg r := rfl

/-! ### What `raiseFatal` leaves alone -/

@[simp] theorem raiseFatal_reg (c : FaultCause) : (s.raiseFatal c).reg = s.reg := rfl
@[simp] theorem raiseFatal_pc (c : FaultCause) : (s.raiseFatal c).pc = s.pc := rfl
@[simp] theorem raiseFatal_flagL (c : FaultCause) : (s.raiseFatal c).flagL = s.flagL := rfl
@[simp] theorem raiseFatal_flagG (c : FaultCause) : (s.raiseFatal c).flagG = s.flagG := rfl
@[simp] theorem raiseFatal_flagE (c : FaultCause) : (s.raiseFatal c).flagE = s.flagE := rfl
@[simp] theorem raiseFatal_mem (c : FaultCause) : (s.raiseFatal c).mem = s.mem := rfl
@[simp] theorem raiseFatal_out (c : FaultCause) : (s.raiseFatal c).out = s.out := rfl
@[simp] theorem raiseFatal_params (c : FaultCause) : (s.raiseFatal c).params = s.params := rfl
@[simp] theorem raiseFatal_getReg (c : FaultCause) (r : Reg) : (s.raiseFatal c).getReg r = s.getReg r := rfl
@[simp] theorem raiseFatal_memRead (c : FaultCause) (a : Byte) : (s.raiseFatal c).memRead a = s.memRead a := rfl

/-! ### What `compareFlags` leaves alone: everything but one flag -/

@[simp] theorem compareFlags_reg (a b : Byte) : (s.compareFlags a b).reg = s.reg := by
  unfold State.compareFlags; split_ifs <;> rfl

@[simp] theorem compareFlags_pc (a b : Byte) : (s.compareFlags a b).pc = s.pc := by
  unfold State.compareFlags; split_ifs <;> rfl

@[simp] theorem compareFlags_mem (a b : Byte) : (s.compareFlags a b).mem = s.mem := by
  unfold State.compareFlags; split_ifs <;> rfl

@[simp] theorem compareFlags_run (a b : Byte) : (s.compareFlags a b).run = s.run := by
  unfold State.compareFlags; split_ifs <;> rfl

@[simp] theorem compareFlags_faultCause (a b : Byte) : (s.compareFlags a b).faultCause = s.faultCause := by
  unfold State.compareFlags; split_ifs <;> rfl

@[simp] theorem compareFlags_faultPc (a b : Byte) : (s.compareFlags a b).faultPc = s.faultPc := by
  unfold State.compareFlags; split_ifs <;> rfl

@[simp] theorem compareFlags_out (a b : Byte) : (s.compareFlags a b).out = s.out := by
  unfold State.compareFlags; split_ifs <;> rfl

@[simp] theorem compareFlags_params (a b : Byte) : (s.compareFlags a b).params = s.params := by
  unfold State.compareFlags; split_ifs <;> rfl

@[simp] theorem compareFlags_getReg (a b : Byte) (r : Reg) : (s.compareFlags a b).getReg r = s.getReg r := by
  simp [State.getReg]

@[simp] theorem compareFlags_memRead (a b c : Byte) : (s.compareFlags a b).memRead c = s.memRead c := by
  simp [State.memRead]

end Sys2Proof.Machine
end

