-- ==== Sys2Proof/Laws/Memory.lean ====
section
/-!
SUPPORT. The laws of memory: a read after a write, and the canonical form, which every memory operation keeps.
-/

namespace Sys2Proof.Machine

/-! ### Reads after writes -/

theorem lookupCell_filter_ne {a b : Nat} (h : b ≠ a) (cells : List Host.Cell) :
    lookupCell (cells.filter fun c => c.1 != a) b = lookupCell cells b := by
  induction cells with
  | nil => rfl
  | cons c rest ih =>
    obtain ⟨k, w⟩ := c
    by_cases hk : k = a
    · simp [lookupCell, hk, h, ih]
    · simp [lookupCell, hk, ih]

theorem lookupCell_filter_self (a : Nat) (cells : List Host.Cell) :
    lookupCell (cells.filter fun c => c.1 != a) a = unlistedByte := by
  induction cells with
  | nil => rfl
  | cons c rest ih =>
    obtain ⟨k, w⟩ := c
    by_cases hk : k = a
    · simp [hk, ih]
    · simp [lookupCell, hk, ih, Ne.symm hk]

theorem lookupCell_insertCell_ne {a b : Nat} (h : b ≠ a) (v : Byte) (cells : List Host.Cell) :
    lookupCell (insertCell a v cells) b = lookupCell cells b := by
  induction cells with
  | nil => simp [insertCell, lookupCell, h]
  | cons c rest ih =>
    obtain ⟨k, w⟩ := c
    by_cases hk : a < k <;> simp [insertCell, lookupCell, hk, h, ih]

theorem lookupCell_insertCell_self (a : Nat) (v : Byte) (cells : List Host.Cell) (h : ∀ c ∈ cells, c.1 ≠ a) :
    lookupCell (insertCell a v cells) a = v := by
  induction cells with
  | nil => simp [insertCell, lookupCell]
  | cons c rest ih =>
    obtain ⟨k, w⟩ := c
    have hne : a ≠ k := fun e => h (k, w) (by simp) e.symm
    have hrest := ih fun d hd => h d (List.mem_cons_of_mem _ hd)
    by_cases hk : a < k <;> simp [insertCell, lookupCell, hk, hne, hrest]

theorem lookupCell_updateCell (a b : Nat) (v : Byte) (cells : List Host.Cell) :
    lookupCell (updateCell a v cells) b = if b = a then v else lookupCell cells b := by
  unfold updateCell
  by_cases hba : b = a
  · subst hba
    rw [if_pos rfl]
    split_ifs with hv
    · rw [lookupCell_filter_self, hv]
    · exact lookupCell_insertCell_self _ _ _ (by simp)
  · rw [if_neg hba]
    split_ifs with hv
    · rw [lookupCell_filter_ne hba]
    · rw [lookupCell_insertCell_ne hba, lookupCell_filter_ne hba]

/-- A read after a write: the byte written at its own address, the old byte everywhere else (R52). -/
theorem Memory.read_write (m : Memory) (a b v : Byte) :
    (m.write a v).read b = if b = a then v else m.read b := by
  simp [Memory.read, Memory.write, lookupCell_updateCell, BitVec.toNat_inj]

@[simp] theorem Memory.read_write_self (m : Memory) (a v : Byte) : (m.write a v).read a = v := by
  simp [Memory.read_write]

theorem Memory.read_write_ne (m : Memory) {a b : Byte} (h : b ≠ a) (v : Byte) : (m.write a v).read b = m.read b := by
  simp [Memory.read_write, h]

theorem memRead_memWrite (s : State) (a b v : Byte) :
    (s.memWrite a v).memRead b = if b = a then v else s.memRead b := Memory.read_write _ _ _ _

@[simp] theorem memRead_memWrite_self (s : State) (a v : Byte) : (s.memWrite a v).memRead a = v :=
  Memory.read_write_self _ _ _

@[simp] theorem Memory.read_empty (a : Byte) : ({ cells := [] } : Memory).read a = 0 := rfl

/-! ### The canonical form -/

theorem Memory.empty_wf : ({ cells := [] } : Memory).wf := by simp [Memory.wf]

theorem mem_insertCell {a : Nat} {v : Byte} {cells : List Host.Cell} {c : Host.Cell} (h : c ∈ insertCell a v cells) :
    c = (a, v) ∨ c ∈ cells := by
  induction cells with
  | nil => simpa [insertCell] using h
  | cons d rest ih =>
    obtain ⟨k, w⟩ := d
    simp only [insertCell] at h
    split_ifs at h with hk
    · simpa using h
    · rcases List.mem_cons.mp h with h | h
      · simp [h]
      · rcases ih h with h | h <;> simp [h]

theorem insertCell_pairwise {a : Nat} {v : Byte} {cells : List Host.Cell}
    (hs : cells.Pairwise fun c d => c.1 < d.1) (hne : ∀ c ∈ cells, c.1 ≠ a) :
    (insertCell a v cells).Pairwise fun c d => c.1 < d.1 := by
  induction cells with
  | nil => simp [insertCell]
  | cons d rest ih =>
    obtain ⟨k, w⟩ := d
    obtain ⟨hlt, hrest⟩ := List.pairwise_cons.mp hs
    simp only [insertCell]
    split_ifs with hk
    · refine List.pairwise_cons.mpr ⟨fun c hc => ?_, hs⟩
      rcases List.mem_cons.mp hc with rfl | hc
      · exact hk
      · exact hk.trans (hlt c hc)
    · refine List.pairwise_cons.mpr ⟨fun c hc => ?_, ih hrest fun c hc => hne c (List.mem_cons_of_mem _ hc)⟩
      rcases mem_insertCell hc with rfl | hc
      · have : k ≠ a := hne (k, w) (by simp)
        simp only; omega
      · exact hlt c hc

theorem updateCell_wf {cells : List Host.Cell} (h : (Memory.mk cells).wf) {a : Nat} (ha : a < memSize) (v : Byte) :
    (Memory.mk (updateCell a v cells)).wf := by
  obtain ⟨hs, hc⟩ := h
  have hs' : (cells.filter fun c => c.1 != a).Pairwise fun c d => c.1 < d.1 := hs.filter _
  have hc' : ∀ c ∈ cells.filter (fun c => c.1 != a), c.1 < memSize ∧ c.2 ≠ unlistedByte := fun c h =>
    hc c (List.mem_filter.mp h).1
  unfold updateCell
  split_ifs with hv
  · exact ⟨hs', hc'⟩
  · refine ⟨insertCell_pairwise hs' (by simp), fun c h => ?_⟩
    rcases mem_insertCell h with rfl | h
    · exact ⟨ha, hv⟩
    · exact hc' c h

/-- A write keeps the canonical form. -/
theorem Memory.write_wf {m : Memory} (h : m.wf) (a v : Byte) : (m.write a v).wf :=
  updateCell_wf h a.isLt v

/-- Writing bytes at increasing addresses keeps the canonical form. -/
theorem Memory.writeBytes_wf {m : Memory} (h : m.wf) (a : Byte) (bs : List Byte) : (m.writeBytes a bs).wf := by
  induction bs generalizing m a with
  | nil => exact h
  | cons b bs ih => exact ih (Memory.write_wf h a b) _

theorem placeAtFetch_wf {s : State} (h : s.mem.wf) (bs : List Byte) : (s.placeAtFetch bs).mem.wf :=
  Memory.writeBytes_wf h _ _

theorem reset_mem_wf : State.reset.mem.wf := Memory.empty_wf

end Sys2Proof.Machine
end

