-- ==== Sys2Proof/Laws/Exec.lean ====
section
/-!
SUPPORT. What a meaning can do, said once: `exec_eq`. An instruction with a bad register index enters Fatal with
InvalidRegister; one whose own strict bound is violated enters Fatal with BoundsViolation; every other one has its
`effect`. Provers cite `exec_eq` (or `exec_cases`) and the facts about `effect` instead of unfolding a meaning.
-/

namespace Sys2Proof.Machine

/-- The register an index byte names; the low three bits where it names none (which no use of it depends on). -/
def regOf (x : RegOperand) : Reg := ⟨x.toNat % 8, Nat.mod_lt _ (by decide)⟩

theorem regOf_val {x : RegOperand} (h : x.toNat < 8) : (regOf x).val = x.toNat := Nat.mod_eq_of_lt h

theorem regOf_eq {x : RegOperand} {r : Reg} (h : x.toNat = r.val) : regOf x = r :=
  Fin.ext (by rw [regOf_val (h ▸ r.isLt), h])

/-! ### Operand forms -/

theorem regOperandOk_of {x : RegOperand} {r : Reg} (h : x.toNat = r.val) : regOperandOk x = true := by
  simp [regOperandOk, h]

theorem wellFormed_iff (i : Instr) : i.wellFormed = true ↔ ∀ x ∈ i.regOperands, x.toNat < 8 := by
  simp [Instr.wellFormed, regOperandOk]

theorem regIndex?_of_lt {x : RegOperand} (h : x.toNat < 8) : regIndex? x = some (regOf x) := by
  simp only [regIndex?, dif_pos h]
  exact congrArg some (Fin.ext (regOf_val h).symm)

theorem regIndex?_of_ge {x : RegOperand} (h : ¬ x.toNat < 8) : regIndex? x = none := by
  simp only [regIndex?, dif_neg h]

theorem withReg_eq (x : RegOperand) (s : State) (body : Reg → State) :
    withReg x s body = if regOperandOk x then body (regOf x) else s.raiseFatal .invalidRegister := by
  by_cases h : x.toNat < 8
  · simp [withReg, regIndex?_of_lt h, regOperandOk, h]
  · simp [withReg, regIndex?_of_ge h, regOperandOk, h]

theorem withRegs_eq (x y : RegOperand) (s : State) (body : Reg → Reg → State) :
    withRegs x y s body =
      if regOperandOk x && regOperandOk y then body (regOf x) (regOf y) else s.raiseFatal .invalidRegister := by
  unfold withRegs
  rw [withReg_eq, withReg_eq]
  cases regOperandOk x <;> cases regOperandOk y <;> rfl

/-! ### The meaning of an instruction, in three parts -/

/-- The effect of an instruction whose checks pass. -/
def effect (i : Instr) (s : State) : State :=
  match i with
  | .ldi x imm => (s.setReg (regOf x) imm).advance 3
  | .prn x => (s.emit (s.getReg (regOf x))).advance 2
  | .add x y => (s.setReg (regOf x) (s.getReg (regOf x) + s.getReg (regOf y))).advance 3
  | .mul x y => (s.setReg (regOf x) (s.getReg (regOf x) * s.getReg (regOf y))).advance 3
  | .cmp x y => (s.compareFlags (s.getReg (regOf x)) (s.getReg (regOf y))).advance 3
  | .pop x => ((s.setReg (regOf x) s.readTop).shrinkStack).advance 2
  | .push x => (s.growStack.storeTop (s.growStack.getReg (regOf x))).advance 2
  | .call x => (s.growStack.storeTop (s.pc + 2)).setPc ((s.growStack.storeTop (s.pc + 2)).getReg (regOf x))
  | .ret => (s.setPc s.readTop).shrinkStack
  | .jmp x => s.setPc (s.getReg (regOf x))
  | .jeq x => if s.flagE then s.setPc (s.getReg (regOf x)) else s.advance 2
  | .jne x => if s.flagE then s.advance 2 else s.setPc (s.getReg (regOf x))
  | .hlt => s.halt.advance 1

/-- Whether an instruction's own bound of R156 to R158 is violated. -/
def ownBound (i : Instr) (s : State) : Bool :=
  match i with
  | .ldi _ _ => s.advanceLeaves 3
  | .prn _ => s.advanceLeaves 2
  | .add x y => sumLeaves (s.getReg (regOf x)) (s.getReg (regOf y)) || s.advanceLeaves 3
  | .mul x y => productLeaves (s.getReg (regOf x)) (s.getReg (regOf y)) || s.advanceLeaves 3
  | .cmp _ _ => s.advanceLeaves 3
  | .pop _ => s.stackEmpty || s.advanceLeaves 2
  | .push _ => s.stackFull || s.advanceLeaves 2
  | .call _ => s.stackFull
  | .ret => s.stackEmpty
  | .jmp _ => false
  | .jeq _ => false
  | .jne _ => false
  | .hlt => s.advanceLeaves 1

/-- Every meaning answers a next state, and which one: the register check, then the strict bound, then the effect. -/
theorem exec_eq (i : Instr) (s : State) :
    exec i s = .next (
      if i.wellFormed then
        if s.params.strictBounds && ownBound i s then s.raiseFatal .boundsViolation else effect i s
      else s.raiseFatal .invalidRegister) := by
  cases i <;>
    simp only [exec, execLdi, execPrn, execAdd, execMul, execCmp, execPop, execPush, execCall, execRet, execJmp, execJeq,
      execJne, execHlt, withReg_eq, withRegs_eq, bounded, Instr.wellFormed, Instr.regOperands, List.all_cons, List.all_nil,
      Bool.and_true, Bool.and_false, ownBound, effect, if_true, Bool.false_eq_true, if_false] <;>
    rfl

/-- The three things a meaning can do. -/
theorem exec_cases {i : Instr} {s t : State} (h : exec i s = .next t) :
    (i.wellFormed = false ∧ t = s.raiseFatal .invalidRegister) ∨
    (i.wellFormed = true ∧ s.params.strictBounds = true ∧ ownBound i s = true ∧ t = s.raiseFatal .boundsViolation) ∨
    (i.wellFormed = true ∧ (s.params.strictBounds = true → ownBound i s = false) ∧ t = effect i s) := by
  rw [exec_eq] at h
  injection h with h
  subst h
  cases i.wellFormed <;> cases s.params.strictBounds <;> cases ownBound i s <;> simp

/-- An instruction whose checks pass has its effect. -/
theorem exec_effect {i : Instr} {s : State} (hw : i.wellFormed = true)
    (hb : s.params.strictBounds = true → ownBound i s = false) : exec i s = .next (effect i s) := by
  rw [exec_eq, hw]
  cases hs : s.params.strictBounds
  · simp
  · simp [hb hs]

/-! ### What an effect leaves alone -/

@[simp] theorem effect_params (i : Instr) (s : State) : (effect i s).params = s.params := by
  cases i <;> simp [effect] <;> split_ifs <;> simp

@[simp] theorem effect_faultCause (i : Instr) (s : State) : (effect i s).faultCause = s.faultCause := by
  cases i <;> simp [effect] <;> split_ifs <;> simp

@[simp] theorem effect_faultPc (i : Instr) (s : State) : (effect i s).faultPc = s.faultPc := by
  cases i <;> simp [effect] <;> split_ifs <;> simp

/-- Only HLT changes the run state (R140). -/
theorem effect_run (i : Instr) (s : State) : (effect i s).run = if i = .hlt then .halted else s.run := by
  cases i <;> simp [effect] <;> split_ifs <;> simp

theorem effect_run_ne_fatal {i : Instr} {s : State} (h : s.run ≠ .fatal) : (effect i s).run ≠ .fatal := by
  rw [effect_run]; split_ifs <;> simp [h]

/-- The eight instructions of R81 advance pc by their width. -/
theorem effect_pc {i : Instr} {s : State} (h : advancesPc i.mnemonic = true) :
    (effect i s).pc = s.pc + BitVec.ofNat 8 i.width := by
  cases i <;> simp [advancesPc, Instr.mnemonic] at h <;> simp [effect, Instr.width, Instr.mnemonic, Mnemonic.width]

/-- The own bound of such an instruction takes in its advance (R156). -/
theorem advance_of_ownBound {i : Instr} {s : State} (h : advancesPc i.mnemonic = true) (hb : ownBound i s = false) :
    s.pc.toNat + i.width ≤ 255 := by
  cases i <;> simp [advancesPc, Instr.mnemonic] at h <;>
    simp [ownBound, State.advanceLeaves, Instr.width, Instr.mnemonic, Mnemonic.width] at * <;> omega

/-- Entering Fatal writes the run state and the fault record and nothing else (R151). -/
theorem raiseFatal_enters (c : FaultCause) (s : State) : EntersFatal c s (s.raiseFatal c) := by
  simp [EntersFatal, SameRegs, SameFlags, SameMemory, SameOutput]

/-- Memory is the old one, or the old one with one byte written just below SP (R50). -/
theorem effect_mem (i : Instr) (s : State) :
    (effect i s).mem = s.mem ∨ ∃ v, (effect i s).mem = s.mem.write (s.getReg spIndex - 1) v := by
  cases i <;> simp [effect] <;> first | exact .inr ⟨_, rfl⟩ | (split_ifs <;> simp)

theorem effect_mem_wf (i : Instr) {s : State} (h : s.mem.wf) : (effect i s).mem.wf := by
  rcases effect_mem i s with e | ⟨v, e⟩ <;> rw [e]
  · exact h
  · exact Memory.write_wf h _ _

/-- The output stream is the old one, or grew by the value of one register (R30). -/
theorem effect_out (i : Instr) (s : State) :
    (effect i s).out = s.out ∨ ∃ r, (effect i s).out = s.out ++ [s.getReg r] := by
  cases i <;> simp [effect] <;> first | exact .inr ⟨_, rfl⟩ | (split_ifs <;> simp)

/-- No effect clears a flag (R25). -/
theorem effect_flags (i : Instr) (s : State) :
    (s.flagL = true → (effect i s).flagL = true) ∧ (s.flagG = true → (effect i s).flagG = true) ∧
      (s.flagE = true → (effect i s).flagE = true) := by
  cases i <;> simp [effect, State.compareFlags] <;> split_ifs <;> simp_all

end Sys2Proof.Machine
end

