-- ==== Sys2Proof/Laws/PerInstr.lean ====
section
/-!
SUPPORT. Facts stated for each instruction, one lemma per constructor. The family `Length`: the encoding of an
instruction is as long as its mnemonic's width, 1 to 3 bytes, whatever its operands and whatever the binding (30_encoding.md
R70, R83).
-/

/-- Every width is 1, 2 or 3 (R70). -/
theorem Sys2Proof.width_bounds (m : Sys2Proof.Mnemonic) : 1 ≤ m.width ∧ m.width ≤ 3 := by
  cases m <;> decide

namespace Sys2Proof.Laws.Length

/-- An instruction's encoding has the length R70 gives its mnemonic. -/
def Statement (i : Instr) : Prop :=
  ∀ o : Opcodes, (encode o i).length = i.width ∧ 1 ≤ i.width ∧ i.width ≤ 3

theorem ldi (x : RegOperand) (imm : Immediate) : Statement (.ldi x imm) := fun _ => ⟨rfl, width_bounds _⟩
theorem prn (x : RegOperand) : Statement (.prn x) := fun _ => ⟨rfl, width_bounds _⟩
theorem add (x y : RegOperand) : Statement (.add x y) := fun _ => ⟨rfl, width_bounds _⟩
theorem mul (x y : RegOperand) : Statement (.mul x y) := fun _ => ⟨rfl, width_bounds _⟩
theorem cmp (x y : RegOperand) : Statement (.cmp x y) := fun _ => ⟨rfl, width_bounds _⟩
theorem pop (x : RegOperand) : Statement (.pop x) := fun _ => ⟨rfl, width_bounds _⟩
theorem push (x : RegOperand) : Statement (.push x) := fun _ => ⟨rfl, width_bounds _⟩
theorem call (x : RegOperand) : Statement (.call x) := fun _ => ⟨rfl, width_bounds _⟩
theorem ret : Statement .ret := fun _ => ⟨rfl, width_bounds _⟩
theorem jmp (x : RegOperand) : Statement (.jmp x) := fun _ => ⟨rfl, width_bounds _⟩
theorem jeq (x : RegOperand) : Statement (.jeq x) := fun _ => ⟨rfl, width_bounds _⟩
theorem jne (x : RegOperand) : Statement (.jne x) := fun _ => ⟨rfl, width_bounds _⟩
theorem hlt : Statement .hlt := fun _ => ⟨rfl, width_bounds _⟩

end Sys2Proof.Laws.Length
end

