-- ==== Sys2Proof/Laws/Step.lean ====
section
/-!
SUPPORT. What a step can do, said once: `step_cases`.
-/

namespace Sys2Proof.Machine

/-- A stopped machine does not move (R27). -/
theorem step_of_stopped {s : State} (h : s.run ≠ .running) : step s = .next s := by
  unfold step State.cycle
  cases hr : s.run with
  | running => exact absurd hr h
  | halted => rfl
  | fatal => rfl

theorem step_of_running {s : State} (h : s.run = .running) : step s = s.runCycle := by
  simp [step, State.cycle, h]

/-- The fetch bound comes first (R80, R155). -/
theorem step_of_fetchLeaves {s : State} (h : s.run = .running) (hs : s.params.strictBounds = true)
    (hf : s.fetchLeaves = true) : step s = .next (s.raiseFatal .boundsViolation) := by
  simp [step_of_running h, State.runCycle, hs, hf]

/-- Then the opcode (R78). -/
theorem step_of_unknown {s : State} (h : s.run = .running) (hf : (s.params.strictBounds && s.fetchLeaves) = false)
    {e : DecodeError} (hd : s.fetchDecode = .error e) : step s = .next (s.raiseFatal .unknownInstruction) := by
  obtain ⟨op⟩ := e
  simp only [step_of_running h, State.runCycle, hf, hd, Bool.false_eq_true, if_false]

/-- Then the instruction (R82). -/
theorem step_of_decoded {s : State} (h : s.run = .running) (hf : (s.params.strictBounds && s.fetchLeaves) = false)
    {i : Instr} (hd : s.fetchDecode = .ok i) : step s = exec i s := by
  simp only [step_of_running h, State.runCycle, hf, hd, Bool.false_eq_true, if_false]

/-- Everything a step can do: nothing in a stopped state; otherwise the first check that fails, or the decoded
instruction. -/
theorem step_cases {s t : State} (h : step s = .next t) :
    (s.run ≠ .running ∧ t = s) ∨
    (s.run = .running ∧ (s.params.strictBounds && s.fetchLeaves) = true ∧ t = s.raiseFatal .boundsViolation) ∨
    (s.run = .running ∧ (s.params.strictBounds && s.fetchLeaves) = false ∧
      (∃ e, s.fetchDecode = .error e) ∧ t = s.raiseFatal .unknownInstruction) ∨
    (s.run = .running ∧ (s.params.strictBounds && s.fetchLeaves) = false ∧
      ∃ i, s.fetchDecode = .ok i ∧ exec i s = .next t) := by
  by_cases hr : s.run = .running
  · cases hf : s.params.strictBounds && s.fetchLeaves with
    | true =>
      rw [step_of_running hr, State.runCycle, if_pos hf] at h
      injection h with h
      exact .inr (.inl ⟨hr, rfl, h.symm⟩)
    | false =>
      cases hd : s.fetchDecode with
      | error e =>
        rw [step_of_unknown hr hf hd] at h
        injection h with h
        exact .inr (.inr (.inl ⟨hr, rfl, ⟨e, rfl⟩, h.symm⟩))
      | ok i =>
        rw [step_of_decoded hr hf hd] at h
        exact .inr (.inr (.inr ⟨hr, rfl, i, rfl, h⟩))
  · rw [step_of_stopped hr] at h
    injection h with h
    exact .inl ⟨hr, h.symm⟩

/-- One more step of a run. -/
theorem run_succ_of_next {s t : State} (h : step s = .next t) (k : Nat) :
    Host.Core.run core (k + 1) s = Host.Core.run core k t := by
  have h' : core.step s = .next t := h
  simp only [Host.Core.run, h']

/-- A relation that holds of a state and itself, and passes from a step's result back to its start, holds over any run.
The induction of every claim about runs. -/
theorem run_induction {P : State → State → Prop} (refl : ∀ s, P s s)
    (step_back : ∀ s t u, step s = .next t → P t u → P s u) :
    ∀ (k : Nat) (s u : State), Host.Core.run core k s = .next u → P s u := by
  intro k
  induction k with
  | zero =>
    intro s u h
    injection h with h
    exact h ▸ refl s
  | succ k ih =>
    intro s u h
    cases hs : step s with
    | next t =>
      rw [run_succ_of_next hs] at h
      exact step_back s t u hs (ih t u h)
    | fault r => exact nomatch r
    | refused r =>
      have hs' : core.step s = .refused r := hs
      simp [Host.Core.run, hs'] at h

end Sys2Proof.Machine
end

