-- ==== Sys2Proof/Tests/Slice0.lean ====
section
/-!
SUPPORT. The model's own tests. Expected results come from the worked examples and vectors of spec/95_test_vectors.md
(their ids stand in the comments) or from hand calculation with the rule named. The second part shows, for each statement
of Certificates/Slice0/Obligations.lean that has hypotheses, a concrete state and operands that meet them.
-/

namespace Sys2Proof.Tests

open Sys2Proof.Machine

/-! ### Helpers -/

/-- A Running state: `bytes` at `pc`, R0, R1, R2, … from `regs`, SP, and the parameter `STRICT_BOUNDS`. -/
def st (strict : Bool) (pc sp : Byte) (regs bytes : List Byte) : State :=
  let s0 : State := ({ State.reset with pc := pc }.withStrict strict).placeAtFetch bytes
  (regs.zipIdx.foldl (fun s (v, k) => s.setReg (Fin.ofNat 8 k) v) s0).setSp sp

/-- The state after one step. -/
def after (s : State) : State :=
  match step s with
  | .next t => t
  | .fault _ => s
  | .refused _ => s

/-- The cause code and fault pc of a state that is Fatal. -/
def fatalWith (s : State) : Option (BitVec 3 × Byte) :=
  if s.run = .fatal then some (s.faultCause, s.faultPc) else none

/-! ### Well-formedness: one ill-formed term for each check -/

theorem test_wellFormed_refuses_each_register_operand :
    [Instr.ldi 8 0, .prn 8, .add 8 0, .add 0 8, .mul 8 0, .mul 0 8, .cmp 8 0, .cmp 0 8, .pop 8, .push 8, .call 8,
      .jmp 8, .jeq 8, .jne 255].all (fun i => !i.wellFormed) = true := by decide

theorem test_wellFormed_accepts_seven_and_any_immediate :
    [Instr.ldi 7 255, .prn 7, .add 7 7, .mul 7 7, .cmp 7 7, .pop 7, .push 7, .call 7, .ret, .jmp 7, .jeq 7, .jne 7,
      .hlt].all (fun i => i.wellFormed) = true := by decide

theorem test_binding_refuses_equal_opcodes : { defaultOpcodes with prn := 0x82 }.wellFormed = false := by decide
theorem test_binding_refuses_zero : { defaultOpcodes with hlt := 0x00 }.wellFormed = false := by decide

/-! ### Decoding: words written out bit by bit from R70 and R72, every constructor -/

theorem test_decode_ldi : decodeTableWord 24 0b000010000000000010000010 = some (.ldi 0 8) := by decide
theorem test_decode_prn : decodeTableWord 16 0b0000010101000111 = some (.prn 5) := by decide
theorem test_decode_add : decodeTableWord 24 0b000000010000000010100000 = some (.add 0 1) := by decide
theorem test_decode_mul : decodeTableWord 24 0b000000110000001010100010 = some (.mul 2 3) := by decide
theorem test_decode_cmp : decodeTableWord 24 0b000000000000011110100111 = some (.cmp 7 0) := by decide
theorem test_decode_pop : decodeTableWord 16 0b0000001001000110 = some (.pop 2) := by decide
theorem test_decode_push : decodeTableWord 16 0b0000011101000101 = some (.push 7) := by decide
theorem test_decode_call : decodeTableWord 16 0b0000000101010000 = some (.call 1) := by decide
theorem test_decode_ret : decodeTableWord 8 0b00010001 = some .ret := by decide
theorem test_decode_jmp : decodeTableWord 16 0b0000001001010100 = some (.jmp 2) := by decide
theorem test_decode_jeq : decodeTableWord 16 0b0000001101010101 = some (.jeq 3) := by decide
theorem test_decode_jne : decodeTableWord 16 0b0000001101010110 = some (.jne 3) := by decide
theorem test_decode_hlt : decodeTableWord 8 0b00000001 = some .hlt := by decide
/-- V-DEC-1 to V-DEC-3, and the LS-8 NOP value of R78. -/
theorem test_decode_refuses : [0x00, 0xFF, 0x02, 0x03].map (decodeTableWord 8) = [none, none, none, none] := by decide
/-- R73: another binding decodes by its own values. -/
theorem test_decode_other_binding :
    decode { defaultOpcodes with ldi := 0x11, ret := 0x82 } 0x82 1 2 = .ok .ret := by rfl
theorem test_encode_ldi : encode defaultOpcodes (.ldi 0 8) = [0x82, 0x00, 0x08] := by decide

/-! ### One step of each instruction -/

/-- V-LDI-3. -/
theorem test_ldi_r7_sets_sp : (after (st false 0 255 [] [0x82, 0x07, 0x10])).sp = 16 := by decide
/-- V-LDI-5. -/
theorem test_ldi_pc_wraps : (after (st false 253 255 [] [0x82, 1, 5])).pc = 0 := by decide
/-- V-LDI-6. -/
theorem test_ldi_strict_advance : fatalWith (after (st true 253 255 [] [0x82, 1, 5])) = some (4, 253) := by decide
/-- V-LDI-7: Y is fetched from address 0. -/
theorem test_ldi_fetch_wraps : (after (st false 254 255 [] [0x82, 2, 0x2A])).getReg 2 = 42 := by decide
/-- V-LDI-4, R79. -/
theorem test_ldi_bad_register : fatalWith (after (st false 0 255 [] [0x82, 8, 1])) = some (3, 0) := by decide
/-- V-PRN-1. -/
theorem test_prn_emits : (after (st false 0 255 [0, 0, 0, 0, 0, 200] [0x47, 5])).out = [200] := by decide
/-- V-PRN-3. -/
theorem test_prn_bad_register : (after (st false 0 255 [] [0x47, 9])).out = [] := by decide
/-- V-ADD-2. -/
theorem test_add_wraps : (after (st false 0 255 [200, 100] [0xA0, 0, 1])).getReg 0 = 44 := by decide
/-- V-ADD-3. -/
theorem test_add_strict : fatalWith (after (st true 0 255 [200, 100] [0xA0, 0, 1])) = some (4, 0) := by decide
/-- V-MUL-5. -/
theorem test_mul_wraps : (after (st false 0 255 [255, 255] [0xA2, 0, 1])).getReg 0 = 1 := by decide
/-- V-MUL-3. -/
theorem test_mul_strict : fatalWith (after (st true 0 255 [16, 16] [0xA2, 0, 1])) = some (4, 0) := by decide
/-- V-CMP-6: unsigned. -/
theorem test_cmp_unsigned : (after (st false 0 255 [0, 255] [0xA7, 0, 1])).flagL = true := by decide
/-- V-CMP-7: E is kept. -/
theorem test_cmp_keeps_e :
    let t := after { st false 0 255 [255, 0] [0xA7, 0, 1] with flagE := true }
    (t.flagL, t.flagG, t.flagE) = (false, true, true) := by decide
/-- V-POP-1. -/
theorem test_pop : (after { st false 0 254 [] [0x46, 2] with
    mem := { cells := [(0, 0x46), (1, 2), (254, 42)] } }).getReg 2 = 42 := by decide
/-- V-POP-4. -/
theorem test_pop_r7 : (after { st false 0 250 [] [] with
    mem := { cells := [(0, 0x46), (1, 7), (250, 100)] } }).sp = 101 := by decide
/-- V-PUSH-2. -/
theorem test_push_sp_wraps : (after (st false 10 0 [9] [0x45, 0])).memRead 255 = 9 := by decide
/-- V-PUSH-4: the decremented SP is stored. -/
theorem test_push_r7 : (after (st false 0 255 [] [0x45, 7])).memRead 254 = 254 := by decide
/-- V-CALL-2. -/
theorem test_call_r7 :
    let t := after (st false 10 200 [] [0x50, 7])
    (t.pc, t.sp, t.memRead 199) = (199, 199, 12) := by decide
/-- V-CALL-3: the return address wraps. -/
theorem test_call_at_254 : (after (st false 254 255 [0, 30] [0x50, 1])).pc = 30 := by decide
/-- V-RET-1. -/
theorem test_ret : (after { st false 16 254 [] [] with mem := { cells := [(16, 0x11), (254, 8)] } }).pc = 8 := by decide
/-- V-RET-3. -/
theorem test_ret_strict : fatalWith (after (st true 16 255 [] [0x11])) = some (4, 16) := by decide
/-- V-JMP-2. -/
theorem test_jmp_r7 : (after (st false 12 255 [] [0x54, 7])).pc = 255 := by decide
/-- V-JEQ-2: L does not matter. -/
theorem test_jeq_not_taken : (after { st false 12 255 [0, 0, 0, 20] [0x55, 3] with flagL := true }).pc = 14 := by decide
/-- V-JEQ-3: checked although not taken. -/
theorem test_jeq_bad_register : fatalWith (after (st false 12 255 [] [0x55, 8])) = some (3, 12) := by decide
/-- V-JNE-1. -/
theorem test_jne_taken : (after { st false 12 255 [0, 0, 0, 20] [0x56, 3] with flagL := true }).pc = 20 := by decide
/-- V-JNE-3: the fall-through wraps. -/
theorem test_jne_wraps : (after { st false 255 255 [0, 0, 0, 20] [0x56, 3] with flagE := true }).pc = 1 := by decide
/-- V-HLT-2. -/
theorem test_hlt_wraps :
    let t := after (st false 255 255 [] [1])
    (t.run, t.pc) = (.halted, 0) := by decide
/-- V-HLT-3. -/
theorem test_hlt_strict_fetch : fatalWith (after (st true 254 255 [] [1])) = some (4, 254) := by decide

/-! ### Check order, reset, interface -/

/-- A row of the opcode table given by its opcode byte alone runs as the first instruction after reset. -/
theorem test_withFetchWord_runs :
    step (State.reset.withFetchWord 8 0x46) = exec (.pop 0) (State.reset.withFetchWord 8 0x46) := by rfl

/-- V-DEC-4: the opcode before the register. -/
theorem test_order_opcode_first : fatalWith (after (st false 0 255 [] [3, 9])) = some (1, 0) := by decide
/-- V-DEC-5: the register before the advance bound. -/
theorem test_order_register_first : fatalWith (after (st true 253 255 [] [0xA0, 0, 9])) = some (3, 253) := by decide
/-- V-DEC-6: the fetch bound first. -/
theorem test_order_fetch_first : fatalWith (after (st true 254 255 [] [0])) = some (4, 254) := by decide
/-- V-HLT-4, V-DEC-7: a stopped machine does not move. -/
theorem test_stopped : after { st false 5 255 [] [0x82, 1, 1] with run := .halted } =
    { st false 5 255 [] [0x82, 1, 1] with run := .halted } := by decide
/-- W3, R184: the empty image. -/
theorem test_reset_empty_image : fatalWith (after State.reset) = some (1, 0) := by decide
/-- R180, W2: an image of the single byte HLT. -/
theorem test_load_hlt : ∃ s, loadImage defaultParams [0x01] = .next s ∧ (after s).run = .halted ∧ (after s).pc = 1 :=
  ⟨_, rfl, by decide, by decide⟩
/-- The cell a zero is written to is no longer listed. -/
theorem test_write_zero_unlists : (State.reset.mem.write 3 9).write 3 0 = State.reset.mem := by decide
/-- R183: `ld_we` is ignored at the first reset edge and honoured at the next. -/
theorem test_reset_edges :
    let c : Chip := { core := State.reset, inReset := false, outPort := none }
    let d := c.resetEdge (loadInputs 4 7)
    (d.core.memRead 4, (d.resetEdge (loadInputs 4 7)).core.memRead 4) = (0, 7) := by decide
/-- R192: the port holds a PRN's byte for one cycle. -/
theorem test_out_port :
    let c : Chip := { core := st false 0 255 [9] [0x47, 0, 0x01], inReset := false, outPort := none }
    let d := c.afterStep (after c.core)
    (d.outPort, (d.afterStep (after d.core)).outPort) = (some 9, none) := by decide
/-- R84: `SP` names R7, literals may be hexadecimal; `R8` is no register. -/
theorem test_assemble_sp : assemble defaultOpcodes "LDI SP, 0x1F".toList = some [0x82, 7, 0x1F] := by decide
/-- Log entry 14: hexadecimal digits in either case, leading zeros in each base. -/
theorem test_literals_of_entry_14 :
    ["0x1f", "0x1F", "0x001F", "0b00011111", "031"].map (fun l => parseImm l.toList) = List.replicate 5 (some 31) := by
  decide
/-- Log entry 14: a line carries no comment. -/
theorem test_line_without_comment : ["RET", " RET ", "RET ; back", "RET # back", ""].map (fun l => parseLine l.toList) =
    [some .ret, some .ret, none, none, none] := by decide
theorem test_assemble_refuses_r8 : assemble defaultOpcodes "ADD R0, R8".toList = none := by decide

/-! ### Witnesses: the hypotheses of each statement can be met -/

/-- A strict state at the last pc a three-byte instruction may start at, with room on the stack. -/
def w3 : State := st true 252 254 [100, 155] []
/-- A strict state at the last pc a two-byte instruction may start at. -/
def w2 : State := st true 253 1 [100, 155] []

theorem witness_LdiWritesItsImmediate :
    (7 : Byte).toNat = spIndex.val ∧ ¬ (w3.strict ∧ 255 < w3.pc.toNat + 3) := by decide
theorem witness_PrnEmitsTheRegister : (7 : Byte).toNat = spIndex.val ∧ ¬ (w2.strict ∧ 255 < w2.pc.toNat + 2) := by decide
theorem witness_AddWritesTheSumModulo256 : (0 : Byte).toNat = (0 : Reg).val ∧ (1 : Byte).toNat = (1 : Reg).val ∧
    ¬ (w3.strict ∧ (255 < (w3.getReg 0).toNat + (w3.getReg 1).toNat ∨ 255 < w3.pc.toNat + 3)) := by decide
theorem witness_MulWritesTheProductModulo256 : (2 : Byte).toNat = (2 : Reg).val ∧ (1 : Byte).toNat = (1 : Reg).val ∧
    ¬ (w3.strict ∧ (255 < (w3.getReg 2).toNat * (w3.getReg 1).toNat ∨ 255 < w3.pc.toNat + 3)) := by decide
/-- Each of the three orders of CMP, at values one apart. -/
theorem witness_CmpSetsOneFlagAndKeepsTheOthers :
    ¬ (w3.strict ∧ 255 < w3.pc.toNat + 3) ∧
    (∃ s : State, ¬ (s.strict ∧ 255 < s.pc.toNat + 3) ∧ (s.getReg 0).toNat < (s.getReg 1).toNat) ∧
    (∃ s : State, ¬ (s.strict ∧ 255 < s.pc.toNat + 3) ∧ (s.getReg 1).toNat < (s.getReg 0).toNat) ∧
    (∃ s : State, ¬ (s.strict ∧ 255 < s.pc.toNat + 3) ∧ (s.getReg 0).toNat = (s.getReg 1).toNat) :=
  ⟨by decide, ⟨st true 252 1 [254, 255] [], by decide⟩, ⟨st true 252 1 [1, 0] [], by decide⟩,
    ⟨st true 252 1 [255, 255] [], by decide⟩⟩
theorem witness_PopReadsThenIncrementsSp :
    (3 : Byte).toNat = (3 : Reg).val ∧ (3 : Reg) ≠ spIndex ∧ (7 : Byte).toNat = spIndex.val ∧
    ¬ ((st true 253 254 [] []).strict ∧ ((st true 253 254 [] []).sp = 255 ∨ 255 < (st true 253 254 [] []).pc.toNat + 2)) := by
  decide
theorem witness_PushStoresAtTheDecrementedSp :
    (3 : Byte).toNat = (3 : Reg).val ∧ (7 : Byte).toNat = spIndex.val ∧
    ¬ (w2.strict ∧ (w2.sp = 0 ∨ 255 < w2.pc.toNat + 2)) := by decide
theorem witness_CallPushesItsReturnAddress :
    (3 : Byte).toNat = (3 : Reg).val ∧ (7 : Byte).toNat = spIndex.val ∧ ¬ (w2.strict ∧ w2.sp = 0) := by decide
theorem witness_RetPopsThePc : ¬ (w3.strict ∧ w3.sp = 255) := by decide
theorem witness_JmpGoesToTheRegister : (7 : Byte).toNat = spIndex.val := by decide
/-- JEQ and JNE: a state for each value of E. -/
theorem witness_JeqFollowsE : (7 : Byte).toNat = spIndex.val ∧ State.reset.flagE = false ∧
    ({ State.reset with flagE := true } : State).flagE = true := by decide
theorem witness_JneFollowsE : (0 : Byte).toNat = (0 : Reg).val ∧ State.reset.flagE = false ∧
    ({ State.reset with flagE := true } : State).flagE = true := by decide
theorem witness_HltHaltsAndAdvances : ¬ (w2.strict ∧ 255 < w2.pc.toNat + 1) := by decide

theorem witness_InvalidRegisterOperandIsFatal :
    (∃ x ∈ (Instr.add 7 8).regOperands, 8 ≤ x.toNat) ∧
    (∃ s : State, s.run = .running ∧ ¬ (s.strict ∧ 254 ≤ s.pc.toNat) ∧ s.fetchDecode = .ok (.add 7 8)) ∧
    (∀ x ∈ (Instr.ldi 7 255).regOperands, x.toNat < 8) ∧
    ∃ s t : State, s.run ≠ .fatal ∧ exec (.ldi 7 255) s = .next t ∧ t.run = .fatal :=
  ⟨by decide, ⟨st true 253 255 [] [0xA0, 7, 8], by decide, by decide, rfl⟩, by decide,
    ⟨st true 253 255 [] [], _, by decide, rfl, by decide⟩⟩
theorem witness_UnknownOpcodeIsFatal : State.reset.run = .running ∧ ¬ (State.reset.strict ∧ 254 ≤ State.reset.pc.toNat) ∧
    ∀ m ∈ allMnemonics, State.reset.params.opc.of m ≠ State.reset.memRead State.reset.pc := by decide
theorem witness_StrictFetchBound :
    (st true 254 0 [] []).run = .running ∧ (st true 254 0 [] []).strict ∧ 254 ≤ (st true 254 0 [] []).pc.toNat := by decide
theorem witness_StrictAdvanceBound : advancesPc (Instr.mnemonic (.cmp 0 7)) = true ∧ (Instr.cmp 0 7).wellFormed = true ∧
    w2.strict ∧ 255 < w2.pc.toNat + (Instr.cmp 0 7).width ∧ w2.pc.toNat < 254 := by decide
theorem witness_StrictStackBounds : (7 : Byte).toNat < 8 ∧ (st true 0 0 [] []).strict ∧ (st true 0 0 [] []).sp = 0 ∧
    (st true 0 255 [] []).strict ∧ (st true 0 255 [] []).sp = 255 := by decide
/-- The least sum and a product just above 255. -/
theorem witness_StrictArithmeticBounds :
    (st true 0 255 [255, 1] []).strict ∧
    255 < ((st true 0 255 [255, 1] []).getReg 0).toNat + ((st true 0 255 [255, 1] []).getReg 1).toNat ∧
    255 < ((st true 0 255 [16, 16] []).getReg 0).toNat * ((st true 0 255 [16, 16] []).getReg 1).toNat := by decide
theorem witness_FatalStepWritesOnlyTheFaultRecord :
    ∃ t, State.reset.run = .running ∧ step State.reset = .next t ∧ t.run = .fatal := ⟨_, by decide, rfl, by decide⟩
/-- One state for each of the four ways to Fatal. -/
theorem witness_FirstFailingCheckGivesTheCause :
    ∀ s ∈ [st true 254 0 [] [0], st true 253 0 [] [3, 9], st true 253 0 [] [0xA0, 0, 9], st true 253 0 [] [0xA0, 0, 1]],
      s.run = .running ∧ (after s).run = .fatal := by decide
theorem witness_WithoutStrictBoundsNothingGoesOutOfBounds :
    ¬ State.reset.strict ∧ State.reset.run = .running ∧ (Instr.pop 7).wellFormed = true ∧
    (∃ t, step State.reset = .next t ∧ t.run = .fatal) ∧ ∃ t, exec (.pop 7) State.reset = .next t :=
  ⟨by decide, by decide, by decide, ⟨_, rfl, by decide⟩, ⟨_, rfl⟩⟩
theorem witness_StepRunsTheDecodedInstruction :
    ∃ s : State, s.run = .running ∧ ¬ (s.strict ∧ 254 ≤ s.pc.toNat) ∧
      decode s.params.opc (s.memRead s.pc) (s.memRead (s.pc + 1)) (s.memRead (s.pc + 2)) = .ok (.ldi 7 255) :=
  ⟨st true 253 0 [] [0x82, 7, 255], by decide, by decide, rfl⟩
theorem witness_StoppedStatesAbsorb :
    ({ State.reset with run := .halted } : State).run ≠ .running ∧
    ∀ i ∈ [{ resetInputs with rst := false }], i.rst = false := by decide
theorem witness_OnlyHltHalts : ∃ s t : State, s.run = .running ∧ step s = .next t ∧ t.run = .halted :=
  ⟨st false 255 0 [] [1], _, by decide, rfl, by decide⟩
theorem witness_ParametersAreFixedForARun : ∃ t, Host.Core.run core 2 State.reset = .next t := ⟨_, rfl⟩
theorem witness_PcAdvancesByTheWidth :
    ∃ t, advancesPc (Instr.mnemonic (.ldi 1 5)) = true ∧ (st false 253 0 [] []).run ≠ .fatal ∧
      exec (.ldi 1 5) (st false 253 0 [] []) = .next t ∧ t.run ≠ .fatal := ⟨_, by decide, by decide, rfl, by decide⟩
theorem witness_StrictAdvanceNeverWraps :
    ∃ t, w3.strict ∧ advancesPc (Instr.mnemonic (.ldi 1 5)) = true ∧ w3.run ≠ .fatal ∧
      exec (.ldi 1 5) w3 = .next t ∧ t.run ≠ .fatal := ⟨_, by decide, by decide, by decide, rfl, by decide⟩
/-- A run of two steps (CMP, HLT) from a state where L is set and E is not. -/
theorem witness_FlagsAreSticky :
    ∃ s t : State, Host.Core.run core 2 s = .next t ∧ s.flagL = true ∧ s.flagE = false ∧ t.flagE = true :=
  ⟨{ st false 0 255 [4, 4] [0xA7, 0, 1, 1] with flagL := true }, _, rfl, by decide, by decide, by decide⟩
theorem witness_OnlyCmpWritesFlags : ∃ t, (Instr.mnemonic (.add 0 1)) ≠ .cmp ∧ exec (.add 0 1) State.reset = .next t :=
  ⟨_, by decide, rfl⟩
theorem witness_LAndGAreNeverRead : ∃ t, step (st false 0 255 [4, 5] [0xA7, 0, 1]) = .next t := ⟨_, rfl⟩
theorem witness_OutputOnlyGrowsAndOnlyByPrn :
    (∃ t, (Instr.mnemonic (.add 0 1)) ≠ .prn ∧ exec (.add 0 1) State.reset = .next t) ∧
    ∃ t, Host.Core.run core 2 (st false 0 255 [9] [0x47, 0, 1]) = .next t ∧ t.out = [9] :=
  ⟨⟨_, by decide, rfl⟩, ⟨_, rfl, by decide⟩⟩
theorem witness_OnlyPushAndCallStore :
    ∃ t, exec (.pop 0) State.reset = .next t ∧ (Instr.mnemonic (.pop 0)) ≠ .push ∧ (Instr.mnemonic (.pop 0)) ≠ .call :=
  ⟨_, rfl, by decide, by decide⟩
/-- SP itself under an instruction that does not name it, and R1 under a POP of R0. -/
theorem witness_OnlyNamedRegistersChange :
    (∃ t, exec (.ldi 6 1) State.reset = .next t ∧ (∀ x ∈ (Instr.ldi 6 1).regOperands, x.toNat ≠ spIndex.val)) ∧
    ∃ t, exec (.pop 0) State.reset = .next t ∧ (∀ x ∈ (Instr.pop 0).regOperands, x.toNat ≠ (1 : Reg).val) ∧
      (1 : Reg) ≠ spIndex := ⟨⟨_, rfl, by decide⟩, ⟨_, rfl, by decide, by decide⟩⟩
/-- A strict state where the PUSH and the POP both just fit. -/
theorem witness_PushThenPopCopiesTheRegister :
    (0 : Byte).toNat = (0 : Reg).val ∧ (6 : Byte).toNat = (6 : Reg).val ∧ (0 : Reg) ≠ spIndex ∧ (6 : Reg) ≠ spIndex ∧
    ¬ ((st true 251 1 [] []).strict ∧ ((st true 251 1 [] []).sp = 0 ∨ 255 < (st true 251 1 [] []).pc.toNat + 4)) := by
  decide
theorem witness_CallThenRetResumesAfterTheCall : (7 : Byte).toNat = spIndex.val ∧ ¬ (w2.strict ∧ w2.sp = 0) := by decide
theorem witness_AddAndMulCommute :
    (0 : Byte).toNat = (0 : Reg).val ∧ (7 : Byte).toNat = spIndex.val ∧ (0 : Reg) ≠ spIndex ∧
    (∃ t u, exec (.add 0 7) State.reset = .next t ∧ exec (.add 7 0) State.reset = .next u ∧
      t.run = .running ∧ u.run = .running) ∧
    ∃ t u, exec (.mul 0 7) State.reset = .next t ∧ exec (.mul 7 0) State.reset = .next u ∧
      t.run = .running ∧ u.run = .running :=
  ⟨by decide, by decide, by decide, ⟨_, _, rfl, rfl, by decide, by decide⟩, ⟨_, _, rfl, rfl, by decide, by decide⟩⟩
theorem witness_PushesFillTheStackDownward :
    (∀ r ∈ [(0 : Reg), 6], r ≠ spIndex) ∧ [(0 : Reg), 6].length ≤ 255 ∧ (st true 251 255 [] []).sp = 255 ∧
    ¬ ((st true 251 255 [] []).strict ∧ 255 < (st true 251 255 [] []).pc.toNat + 2 * [(0 : Reg), 6].length) := by decide
theorem witness_StoredByteIsFetchedByTheNextStep :
    (0 : Byte).toNat = (0 : Reg).val ∧ (0 : Reg) ≠ spIndex ∧
    ¬ ((st true 6 9 [1] []).strict ∧ ((st true 6 9 [1] []).sp = 0 ∨ 255 < (st true 6 9 [1] []).pc.toNat + 2)) ∧
    (st true 6 9 [1] []).sp - 1 = (st true 6 9 [1] []).pc + 2 := by decide
theorem witness_DecodeOfEncode : defaultOpcodes.wellFormed = true := by decide
theorem witness_EncodeOfDecode : decode defaultOpcodes 0x11 7 9 = .ok .ret := by rfl
theorem witness_AssembledLineIsTheEncoding : (Instr.ldi 7 255).wellFormed = true := by decide
theorem witness_ResetStateOfAnImage : ([0x01] : List Byte).length ≤ 256 := by decide
theorem witness_LoaderContractAtItsEnds :
    256 < (List.replicate 257 (0 : Byte)).length ∧ defaultParams.opc.wellFormed = true :=
  ⟨by rw [List.length_replicate]; decide, by decide⟩
theorem witness_StepKeepsTheInvariant : ∃ t, State.reset.Inv ∧ step State.reset = .next t := ⟨_, by decide, rfl⟩
theorem witness_CanonicalMemoriesThatReadAlikeAreEqual :
    (⟨[(3, 9), (255, 1)]⟩ : Memory).wf ∧ (⟨[(3, 9), (255, 1)]⟩ : Memory).wf := by decide
/-- A Fatal core entering reset, and one already in it. -/
theorem witness_ResetEdgeFromAnyState :
    resetInputs.rst = true ∧
    (⟨{ State.reset with run := .fatal }, false, none⟩ : Chip).inReset = false ∧
    (Chip.powerUp defaultParams).inReset = true := by decide
theorem witness_ResetSequenceLoadsTheImage :
    (⟨State.reset, false, none⟩ : Chip).inReset = false ∧ resetInputs.rst = true ∧ ([0x47, 0x01] : List Byte).length ≤ 256 ∧
    [1, 0].Perm (List.range ([0x47, 0x01] : List Byte).length) ∧
    ∃ s t, loadImage defaultParams [0x47, 0x01] = .next s ∧ step s = .next t :=
  ⟨by decide, by decide, by decide, by decide, ⟨_, _, rfl, rfl⟩⟩
theorem witness_OutputPortCarriesTheStream : ∀ i ∈ [{ resetInputs with rst := false }], i.rst = false := by decide
theorem witness_OutputsAfterAnEdge : ({ resetInputs with rst := false } : Inputs).rst = false := by decide
theorem witness_ExitStatusOfAnEndedRun : (after State.reset).failed := by decide
/-- A strict run of two steps (PRN, HLT). -/
theorem witness_StrictRunsAreDefaultRuns :
    ∃ s t : State, s.strict ∧ Host.Core.run core 2 s = .next t ∧ t.run ≠ .fatal :=
  ⟨st true 0 255 [9] [0x47, 0, 1], _, by decide, rfl, by decide⟩
theorem witness_LoadedImagesMeetTheInvariant :
    defaultParams.opc.wellFormed = true ∧ ([0x47, 0x01] : List Byte).length ≤ 256 := by decide

end Sys2Proof.Tests
end

/-! ## The state: what steps and runs keep (10_state.md) -/

namespace Sys2Proof.Machine

/-! ### What a step and a run can do -/

/-- The causes a step can raise in a state (R150, R154): never UnsupportedOperation, and BoundsViolation only with
`STRICT_BOUNDS`. -/
def State.canRaise (s : State) (c : FaultCause) : Prop :=
  c = .unknownInstruction ∨ c = .invalidRegister ∨ (c = .boundsViolation ∧ s.strict)

/-- A meaning enters Fatal with a cause that can be raised, or has its effect. -/
theorem exec_raises_or_effect {i : Instr} {s t : State} (h : exec i s = .next t) :
    (∃ c, s.canRaise c ∧ t = s.raiseFatal c) ∨ (i.wellFormed = true ∧ t = effect i s) := by
  rcases exec_cases h with ⟨-, ht⟩ | ⟨-, hs, -, ht⟩ | ⟨hw, -, ht⟩
  · exact .inl ⟨_, .inr (.inl rfl), ht⟩
  · exact .inl ⟨_, .inr (.inr ⟨rfl, hs⟩), ht⟩
  · exact .inr ⟨hw, ht⟩

/-- A step does nothing in a stopped state; from Running it enters Fatal or has the effect of the decoded
instruction. -/
theorem step_stays_raises_or_effect {s t : State} (h : step s = .next t) :
    (s.run ≠ .running ∧ t = s) ∨
    (s.run = .running ∧ ∃ c, s.canRaise c ∧ t = s.raiseFatal c) ∨
    (s.run = .running ∧ ∃ i, s.fetchDecode = .ok i ∧ t = effect i s) := by
  rcases step_cases h with hstop | ⟨hr, hb, ht⟩ | ⟨hr, -, -, ht⟩ | ⟨hr, -, i, hd, he⟩
  · exact .inl hstop
  · exact .inr (.inl ⟨hr, _, .inr (.inr ⟨rfl, (Bool.and_eq_true_iff.mp hb).1⟩), ht⟩)
  · exact .inr (.inl ⟨hr, _, .inl rfl, ht⟩)
  · rcases exec_raises_or_effect he with hc | ⟨-, ht⟩
    · exact .inr (.inl ⟨hr, hc⟩)
    · exact .inr (.inr ⟨hr, i, hd, ht⟩)

/-- A reflexive relation that entering Fatal and every effect respect holds over every step. -/
theorem step_rel {P : State → State → Prop} (refl : ∀ s, P s s) (raise : ∀ s c, P s (s.raiseFatal c))
    (eff : ∀ i s, P s (effect i s)) {s t : State} (h : step s = .next t) : P s t := by
  rcases step_stays_raises_or_effect h with ⟨-, rfl⟩ | ⟨-, c, -, rfl⟩ | ⟨-, i, -, rfl⟩
  · exact refl t
  · exact raise s c
  · exact eff i s

/-- Such a relation, if it is transitive too, holds over every run. -/
theorem run_rel {P : State → State → Prop} (refl : ∀ s, P s s) (trans : ∀ s t u, P s t → P t u → P s u)
    (raise : ∀ s c, P s (s.raiseFatal c)) (eff : ∀ i s, P s (effect i s)) {k : Nat} {s t : State}
    (h : Host.Core.run core k s = .next t) : P s t :=
  run_induction refl (fun s t u hs hp => trans s t u (step_rel refl raise eff hs) hp) k s t h

/-- Every state has a next state (R82, R191). -/
theorem exists_step (s : State) : ∃ t, step s = .next t := by
  by_cases hr : s.run = .running
  · cases hf : s.params.strictBounds && s.fetchLeaves with
    | true =>
      obtain ⟨hs, hl⟩ := Bool.and_eq_true_iff.mp hf
      exact ⟨_, step_of_fetchLeaves hr hs hl⟩
    | false =>
      cases hd : s.fetchDecode with
      | error e => exact ⟨_, step_of_unknown hr hf hd⟩
      | ok i => exact ⟨_, (step_of_decoded hr hf hd).trans (exec_eq i s)⟩
  · exact ⟨s, step_of_stopped hr⟩

/-- A run of `k + 1` steps is a step and a run of `k` steps. -/
theorem run_succ_cases {k : Nat} {s u : State} (h : Host.Core.run core (k + 1) s = .next u) :
    ∃ t, step s = .next t ∧ Host.Core.run core k t = .next u := by
  obtain ⟨t, ht⟩ := exists_step s
  exact ⟨t, ht, run_succ_of_next ht k ▸ h⟩

/-! ### What an edge without reset does -/

/-- An edge with `rst` low is one step of the CORE (R191). -/
theorem edge_of_step {c : Chip} {i : Inputs} {t : State} (hi : i.rst = false) (h : step c.core = .next t) :
    c.edge i = .next (c.afterStep t) := by
  simp [Chip.edge, hi, h]

theorem edges_cons_of_next {c d : Chip} {i : Inputs} (h : c.edge i = .next d) (is : List Inputs) :
    c.edges (i :: is) = d.edges is := by
  simp [Chip.edges, h]

theorem portBytes_cons_of_next {c d : Chip} {i : Inputs} (h : c.edge i = .next d) (is : List Inputs) :
    c.portBytes (i :: is) = d.outPort.toList ++ d.portBytes is := by
  simp [Chip.portBytes, h]

/-! ### O49: the invariant -/

/-- Raising a cause that can be raised keeps the invariant, whatever the fault record was (R150, R151). -/
theorem raiseFatal_inv {s : State} (h : s.Inv) {c : FaultCause} (hc : s.canRaise c) : (s.raiseFatal c).Inv := by
  obtain ⟨hmem, -, hopc⟩ := h
  refine ⟨hmem, ?_, hopc⟩
  rw [State.faultRecordOk, if_pos (raiseFatal_run s c)]
  refine ⟨rfl, ?_⟩
  rcases hc with rfl | rfl | ⟨rfl, hs⟩
  · exact .inl rfl
  · exact .inr (.inl rfl)
  · exact .inr (.inr ⟨rfl, hs⟩)

/-- An effect in a state that is not Fatal keeps the invariant: it writes no fault record (R28). -/
theorem effect_inv (i : Instr) {s : State} (h : s.Inv) (hr : s.run ≠ .fatal) : (effect i s).Inv := by
  obtain ⟨hmem, hrec, hopc⟩ := h
  rw [State.faultRecordOk, if_neg hr] at hrec
  refine ⟨effect_mem_wf i hmem, ?_, by rwa [effect_params]⟩
  rw [State.faultRecordOk, if_neg (effect_run_ne_fatal hr), effect_faultCause, effect_faultPc]
  exact hrec

/-- Settles O49: a stopped state stays, and from Running a step raises a cause that can be raised or has an effect. -/
theorem stepKeepsTheInvariant : Obligations.StepKeepsTheInvariant := by
  intro s t hinv h
  rcases step_stays_raises_or_effect h with ⟨-, rfl⟩ | ⟨-, c, hc, rfl⟩ | ⟨hr, i, -, rfl⟩
  · exact hinv
  · exact raiseFatal_inv hinv hc
  · exact effect_inv i hinv (by simp [hr])

/-! ### O53, O33: the output stream -/

/-- A step appends at most one byte to the output stream (R30). -/
theorem step_out {s t : State} (h : step s = .next t) : t.out = s.out ∨ ∃ v, t.out = s.out ++ [v] :=
  step_rel (P := fun s t => t.out = s.out ∨ ∃ v, t.out = s.out ++ [v])
    (fun _ => .inl rfl) (fun _ _ => .inl rfl)
    (fun i s => (effect_out i s).imp_right fun ⟨r, hr⟩ => ⟨s.getReg r, hr⟩) h

/-- What a step appends to the output stream is what the edge puts on the port (R92, R192). -/
theorem step_out_emitted {s t : State} (h : step s = .next t) : t.out = s.out ++ (emitted s t).toList := by
  rcases step_out h with e | ⟨v, e⟩ <;> simp [emitted, e]

/-- Settles O53, by induction on the edges: each adds to the stream the byte it puts on the port. -/
theorem outputPortCarriesTheStream : Obligations.OutputPortCarriesTheStream := by
  intro c is
  induction is generalizing c with
  | nil => exact fun _ => ⟨c, rfl, by simp [Chip.portBytes]⟩
  | cons i is ih =>
    intro hrst
    obtain ⟨hi, his⟩ := List.forall_mem_cons.mp hrst
    obtain ⟨t, ht⟩ := exists_step c.core
    have hedge := edge_of_step hi ht
    obtain ⟨d, hd, hout⟩ := ih (c.afterStep t) his
    refine ⟨d, by rw [edges_cons_of_next hedge, hd], ?_⟩
    calc d.core.out = t.out ++ (c.afterStep t).portBytes is := hout
      _ = c.core.out ++ ((emitted c.core t).toList ++ (c.afterStep t).portBytes is) := by
        rw [step_out_emitted ht, List.append_assoc]
      _ = c.core.out ++ c.portBytes (i :: is) := by rw [portBytes_cons_of_next hedge]; rfl

/-- Only PRN writes the output stream (R30, R76). -/
theorem effect_out_of_ne_prn {i : Instr} (h : i.mnemonic ≠ .prn) (s : State) : (effect i s).out = s.out := by
  cases i with
  | prn x => exact absurd rfl h
  | jeq x | jne x => simp only [effect]; split_ifs <;> rfl
  | _ => simp [effect]

/-- Over a run of `k` steps the output stream grows at its end, by at most `k` bytes (R30). -/
theorem run_out (k : Nat) (s t : State) (h : Host.Core.run core k s = .next t) :
    ∃ bs, t.out = s.out ++ bs ∧ bs.length ≤ k := by
  induction k generalizing s with
  | zero =>
    injection h with h
    exact ⟨[], by simp [h], le_rfl⟩
  | succ k ih =>
    obtain ⟨u, hu, hrun⟩ := run_succ_cases h
    obtain ⟨bs, hbs, hlen⟩ := ih u hrun
    rcases step_out hu with e | ⟨v, e⟩
    · exact ⟨bs, by rw [hbs, e], by omega⟩
    · exact ⟨v :: bs, by simp [hbs, e], by simpa using hlen⟩

/-- Settles O33: entering Fatal leaves the stream alone, and so does every effect but PRN's. -/
theorem outputOnlyGrowsAndOnlyByPrn : Obligations.OutputOnlyGrowsAndOnlyByPrn := by
  refine ⟨fun i s t hi h => ?_, run_out⟩
  rcases exec_raises_or_effect h with ⟨c, -, rfl⟩ | ⟨-, rfl⟩
  · rfl
  · exact effect_out_of_ne_prn hi s

/-! ### O25, O26: the run state -/

theorem run_of_stopped {s : State} (h : s.run ≠ .running) (k : Nat) : Host.Core.run core k s = .next s := by
  induction k with
  | zero => rfl
  | succ k ih => rw [run_succ_of_next (step_of_stopped h), ih]

/-- Edges without reset leave a stopped CORE as it is (R27, R162). -/
theorem edges_of_stopped (c : Chip) (is : List Inputs) (h : c.core.run ≠ .running)
    (hrst : ∀ i ∈ is, i.rst = false) :
    ∃ d, c.edges is = .next d ∧ d.core = c.core := by
  induction is generalizing c with
  | nil => exact ⟨c, rfl, rfl⟩
  | cons i is ih =>
    obtain ⟨hi, his⟩ := List.forall_mem_cons.mp hrst
    rw [edges_cons_of_next (edge_of_step hi (step_of_stopped h))]
    exact ih (c.afterStep c.core) h his

/-- Settles O25, by induction on the steps and on the edges. -/
theorem stoppedStatesAbsorb : Obligations.StoppedStatesAbsorb :=
  ⟨fun k _ h => run_of_stopped h k, edges_of_stopped⟩

/-- Settles O26: no other effect writes the run state, and an error enters Fatal. -/
theorem onlyHltHalts : Obligations.OnlyHltHalts := by
  intro s t hr h hhalt
  rcases step_stays_raises_or_effect h with ⟨hn, -⟩ | ⟨-, c, -, rfl⟩ | ⟨-, i, hd, rfl⟩
  · exact absurd hr hn
  · simp at hhalt
  · by_cases hi : i = .hlt
    · rw [hd, hi]
    · simp [effect_run, hi, hr] at hhalt

/-! ### O27, O29: the parameters and pc -/

/-- Settles O27: neither entering Fatal nor an effect writes the parameters. -/
theorem parametersAreFixedForARun : Obligations.ParametersAreFixedForARun := fun _ _ _ h =>
  run_rel (P := fun s t => t.params = s.params) (fun _ => rfl) (fun _ _ _ hst htu => htu.trans hst)
    (fun _ _ => rfl) effect_params h

/-- Settles O29: under STRICT_BOUNDS an advance that happens has passed the bound of R156. -/
theorem strictAdvanceNeverWraps : Obligations.StrictAdvanceNeverWraps := by
  intro i s t hs hadv _ h ht
  rcases exec_cases h with ⟨-, rfl⟩ | ⟨-, -, -, rfl⟩ | ⟨-, hb, rfl⟩
  · simp at ht
  · simp at ht
  · have hfit : s.pc.toNat + i.width ≤ 255 := advance_of_ownBound hadv (hb hs)
    rw [effect_pc hadv, BitVec.toNat_add, BitVec.toNat_ofNat]
    omega

/-! ### O30, O31, O32: the flags -/

/-- Settles O30: neither entering Fatal nor an effect clears a flag. -/
theorem flagsAreSticky : Obligations.FlagsAreSticky := fun _ _ _ h =>
  run_rel
    (P := fun s t => (s.flagL = true → t.flagL = true) ∧ (s.flagG = true → t.flagG = true) ∧
      (s.flagE = true → t.flagE = true))
    (fun _ => ⟨id, id, id⟩)
    (fun _ _ _ ⟨l, g, e⟩ ⟨l', g', e'⟩ => ⟨l' ∘ l, g' ∘ g, e' ∘ e⟩)
    (fun _ _ => ⟨id, id, id⟩) effect_flags h

/-- Only CMP writes a flag (R25). -/
theorem effect_sameFlags {i : Instr} (h : i.mnemonic ≠ .cmp) (s : State) : SameFlags s (effect i s) := by
  cases i with
  | cmp x y => exact absurd rfl h
  | jeq x | jne x => simp only [effect]; split_ifs <;> exact ⟨rfl, rfl, rfl⟩
  | _ => exact ⟨rfl, rfl, rfl⟩

/-- Settles O31: entering Fatal leaves the flags alone, and so does every effect but CMP's. -/
theorem onlyCmpWritesFlags : Obligations.OnlyCmpWritesFlags := by
  intro i s t hi h
  rcases exec_raises_or_effect h with ⟨c, -, rfl⟩ | ⟨-, rfl⟩
  · exact ⟨rfl, rfl, rfl⟩
  · exact effect_sameFlags hi s

/-- A state with other values of L and G. -/
def State.withLG (s : State) (l g : Bool) : State := { s with flagL := l, flagG := g }

@[simp] theorem withLG_params (s : State) (l g : Bool) : (s.withLG l g).params = s.params := rfl

@[simp] theorem withLG_raiseFatal (s : State) (l g : Bool) (c : FaultCause) :
    (s.withLG l g).raiseFatal c = (s.raiseFatal c).withLG l g := rfl

/-- No check of an instruction reads L or G. -/
@[simp] theorem ownBound_withLG (i : Instr) (s : State) (l g : Bool) : ownBound i (s.withLG l g) = ownBound i s := by
  cases i <;> rfl

/-- CMP writes L or G, or leaves both, without reading them. -/
theorem compareFlags_withLG (s : State) (a b : Byte) (l g : Bool) :
    ∃ l' g', (s.withLG l g).compareFlags a b = (s.compareFlags a b).withLG l' g' := by
  unfold State.compareFlags
  split_ifs
  · exact ⟨true, g, rfl⟩
  · exact ⟨l, true, rfl⟩
  · exact ⟨l, g, rfl⟩

/-- No effect reads L or G (R25). -/
theorem effect_withLG (i : Instr) (s : State) (l g : Bool) :
    ∃ l' g', effect i (s.withLG l g) = (effect i s).withLG l' g' := by
  cases i with
  | cmp x y =>
    obtain ⟨l', g', e⟩ := compareFlags_withLG s (s.getReg (regOf x)) (s.getReg (regOf y)) l g
    exact ⟨l', g', congrArg (State.advance · 3) e⟩
  | jeq x | jne x =>
    refine ⟨l, g, ?_⟩
    cases he : s.flagE <;> simp [effect, State.withLG, he] <;> rfl
  | _ => exact ⟨l, g, rfl⟩

/-- No meaning reads L or G. -/
theorem exec_withLG {i : Instr} {s t : State} (l g : Bool) (h : exec i s = .next t) :
    ∃ l' g', exec i (s.withLG l g) = .next (t.withLG l' g') := by
  rcases exec_cases h with ⟨hw, rfl⟩ | ⟨hw, hs, hb, rfl⟩ | ⟨hw, hb, rfl⟩
  · exact ⟨l, g, by simp [exec_eq, hw]⟩
  · exact ⟨l, g, by simp [exec_eq, hw, hs, hb]⟩
  · obtain ⟨l', g', e⟩ := effect_withLG i s l g
    exact ⟨l', g', e ▸ exec_effect hw fun hs => (ownBound_withLG i s l g).trans (hb hs)⟩

/-- Settles O32: each check and each effect gives the same answer under other values of L and G. -/
theorem lAndGAreNeverRead : Obligations.LAndGAreNeverRead := by
  intro s t l g h
  rcases step_cases h with ⟨hr, rfl⟩ | ⟨hr, hb, rfl⟩ | ⟨hr, hb, ⟨e, hd⟩, rfl⟩ | ⟨hr, hb, i, hd, he⟩
  · exact ⟨l, g, step_of_stopped hr⟩
  · obtain ⟨hs, hl⟩ := Bool.and_eq_true_iff.mp hb
    exact ⟨l, g, step_of_fetchLeaves hr hs hl⟩
  · exact ⟨l, g, step_of_unknown hr hb hd⟩
  · obtain ⟨l', g', e⟩ := exec_withLG l g he
    exact ⟨l', g', (step_of_decoded (s := s.withLG l g) hr hb hd).trans e⟩

/-! ### O35: the registers -/

/-- The instructions that move SP themselves (R22). -/
def movesSp (m : Mnemonic) : Bool := [Mnemonic.push, .pop, .call, .ret].contains m

/-- An effect writes no register but those its operands name, and SP under a stack instruction (R21, R22, R76). -/
theorem effect_getReg_of_unnamed {i : Instr} {r : Reg} (s : State) (hx : ∀ x ∈ i.regOperands, regOf x ≠ r)
    (hsp : movesSp i.mnemonic = true → spIndex ≠ r) : (effect i s).getReg r = s.getReg r := by
  cases i with
  | ldi x _ | add x y | mul x y =>
    have hxr : regOf x ≠ r := hx x (by simp [Instr.regOperands])
    simp [effect, getReg_setReg_ne _ hxr]
  | pop x =>
    have hxr : regOf x ≠ r := hx x (by simp [Instr.regOperands])
    simp [effect, getReg_setReg_ne _ hxr, getReg_setReg_ne _ (hsp rfl)]
  | push x | call x | ret => simp [effect, getReg_setReg_ne _ (hsp rfl)]
  | jeq x | jne x => simp only [effect]; split_ifs <;> rfl
  | prn x | cmp x y | jmp x | hlt => simp [effect]

/-- Settles O35: entering Fatal writes no register, and an effect only those named and SP under a stack instruction. -/
theorem onlyNamedRegistersChange : Obligations.OnlyNamedRegistersChange := by
  intro i s t r h hnamed hsp
  rcases exec_raises_or_effect h with ⟨c, -, rfl⟩ | ⟨hw, rfl⟩
  · rfl
  · refine effect_getReg_of_unnamed s (fun x hx e => hnamed x hx ?_) (fun hm e => ?_)
    · rw [← regOf_val ((wellFormed_iff i).mp hw x hx), e]
    · obtain ⟨hpush, hpop, hcall, hret⟩ := hsp e.symm
      simp [movesSp, hpush, hpop, hcall, hret] at hm

end Sys2Proof.Machine

/-! ## Memory: the strict bounds, stores and the canonical form (20_memory.md) -/

namespace Sys2Proof.Machine

/-! ### O57: what `STRICT_BOUNDS` is to a run that does not end in Fatal -/

@[simp] theorem withStrict_flagE (s : State) (b : Bool) : (s.withStrict b).flagE = s.flagE := rfl

theorem compareFlags_withStrict (s : State) (a b : Byte) (strict : Bool) :
    (s.withStrict strict).compareFlags a b = (s.compareFlags a b).withStrict strict := by
  unfold State.compareFlags
  split_ifs <;> rfl

/-- No effect reads `STRICT_BOUNDS` (R53, R155 to R158: it is read by the checks only). -/
theorem effect_withStrict (i : Instr) (s : State) (b : Bool) :
    effect i (s.withStrict b) = (effect i s).withStrict b := by
  cases i with
  | cmp x y => exact congrArg (State.advance · 3) (compareFlags_withStrict s _ _ b)
  | jeq x | jne x => cases he : s.flagE <;> simp [effect, he] <;> rfl
  | _ => rfl

/-- A meaning that does not end in Fatal has passed its checks, so it does the same without `STRICT_BOUNDS`. -/
theorem exec_withStrict_false {i : Instr} {s t : State} (h : exec i s = .next t) (ht : t.run ≠ .fatal) :
    exec i (s.withStrict false) = .next (t.withStrict false) := by
  rcases exec_cases h with ⟨-, rfl⟩ | ⟨-, -, -, rfl⟩ | ⟨hw, -, rfl⟩
  · exact absurd rfl ht
  · exact absurd rfl ht
  · exact effect_withStrict i s false ▸ exec_effect hw nofun

/-- The step form of O57: a step that does not end in Fatal is a step of the machine without `STRICT_BOUNDS`. -/
theorem step_withStrict_false {s t : State} (h : step s = .next t) (ht : t.run ≠ .fatal) :
    step (s.withStrict false) = .next (t.withStrict false) := by
  rcases step_cases h with ⟨hr, rfl⟩ | ⟨-, -, rfl⟩ | ⟨-, -, -, rfl⟩ | ⟨hr, -, i, hd, he⟩
  · exact step_of_stopped hr
  · exact absurd rfl ht
  · exact absurd rfl ht
  · exact (step_of_decoded (s := s.withStrict false) hr rfl hd).trans (exec_withStrict_false he ht)

/-- Fatal is never left without reset (R160, R162): a run that does not end in Fatal does not start there. -/
theorem run_ne_fatal_of_end {k : Nat} {s t : State} (h : Host.Core.run core k s = .next t) (ht : t.run ≠ .fatal) :
    s.run ≠ .fatal := by
  intro hs
  rw [run_of_stopped (by simp [hs])] at h
  injection h with h
  exact ht (h ▸ hs)

/-- A run that does not end in Fatal is a run of the machine without `STRICT_BOUNDS`: no state on the way is Fatal, so
the step form applies to each step. -/
theorem run_withStrict_false {k : Nat} {s t : State} (h : Host.Core.run core k s = .next t) (ht : t.run ≠ .fatal) :
    Host.Core.run core k (s.withStrict false) = .next (t.withStrict false) := by
  induction k generalizing s with
  | zero =>
    injection h with h
    rw [h]
    rfl
  | succ k ih =>
    obtain ⟨u, hu, hrun⟩ := run_succ_cases h
    have hstep : step (s.withStrict false) = .next (u.withStrict false) :=
      step_withStrict_false hu (run_ne_fatal_of_end hrun ht)
    rw [run_succ_of_next hstep, ih hrun]

/-- Settles O57, by induction on the steps. The run need not be strict: without `STRICT_BOUNDS` it is its own run. -/
theorem strictRunsAreDefaultRuns : Obligations.StrictRunsAreDefaultRuns :=
  fun _ _ _ _ => run_withStrict_false

/-! ### O22: the default machine -/

/-- Without `STRICT_BOUNDS` no cause that can be raised has BoundsViolation's code. -/
theorem State.canRaise.code_ne_boundsViolation {s : State} {c : FaultCause} (h : s.canRaise c) (hs : ¬ s.strict) :
    c.code ≠ FaultCause.code .boundsViolation := by
  rcases h with rfl | rfl | ⟨-, hstrict⟩
  · decide
  · decide
  · exact absurd hstrict hs

/-- Settles O22: a fault there is of another cause, and the only check left in a meaning is that of its register
indices. -/
theorem withoutStrictBoundsNothingGoesOutOfBounds : Obligations.WithoutStrictBoundsNothingGoesOutOfBounds := by
  intro s hs hr
  have hne : s.run ≠ .fatal := by simp [hr]
  refine ⟨fun t h ht => ?_, fun i t hw h => ?_⟩
  · rcases step_stays_raises_or_effect h with ⟨-, rfl⟩ | ⟨-, c, hc, rfl⟩ | ⟨-, i, -, rfl⟩
    · exact absurd ht hne
    · exact hc.code_ne_boundsViolation hs
    · exact absurd ht (effect_run_ne_fatal hne)
  · rcases exec_cases h with ⟨hw', -⟩ | ⟨-, hs', -⟩ | ⟨-, -, rfl⟩
    · simp [hw] at hw'
    · exact absurd hs' hs
    · exact effect_run_ne_fatal hne

/-! ### O34: who stores, and where -/

/-- An effect leaves every cell but the one just below SP (R50). -/
theorem effect_sameMemoryBut (i : Instr) (s : State) : SameMemoryBut (s.sp - 1) s (effect i s) := by
  intro a ha
  rcases effect_mem i s with e | ⟨v, e⟩
  · exact congrArg (Memory.read · a) e
  · exact (congrArg (Memory.read · a) e).trans (Memory.read_write_ne s.mem ha v)

/-- Only PUSH and CALL write memory (R50, R76). -/
theorem effect_mem_of_ne_push_call {i : Instr} (hpush : i.mnemonic ≠ .push) (hcall : i.mnemonic ≠ .call) (s : State) :
    (effect i s).mem = s.mem := by
  cases i with
  | push x => exact absurd rfl hpush
  | call x => exact absurd rfl hcall
  | jeq x | jne x => simp only [effect]; split_ifs <;> rfl
  | _ => simp [effect]

/-- Settles O34: entering Fatal writes no memory, and an effect only as said. -/
theorem onlyPushAndCallStore : Obligations.OnlyPushAndCallStore := by
  intro i s t h
  rcases exec_raises_or_effect h with ⟨c, -, rfl⟩ | ⟨-, rfl⟩
  · exact ⟨fun _ _ => rfl, fun _ _ => rfl⟩
  · exact ⟨effect_sameMemoryBut i s, fun hpush hcall => effect_mem_of_ne_push_call hpush hcall s⟩

/-! ### O50: the canonical form -/

/-- The lookup of an address finds the byte listed for it, when the addresses rise. -/
theorem lookupCell_of_mem {cells : List Host.Cell} (hs : cells.Pairwise fun c d => c.1 < d.1) {c : Host.Cell}
    (hc : c ∈ cells) : lookupCell cells c.1 = c.2 := by
  induction cells with
  | nil => exact absurd hc List.not_mem_nil
  | cons d rest ih =>
    obtain ⟨hlt, hrest⟩ := List.pairwise_cons.mp hs
    rcases List.mem_cons.mp hc with rfl | hc
    · simp [lookupCell]
    · have hne : c.1 ≠ d.1 := (hlt c hc).ne'
      simp [lookupCell, hne, ih hrest hc]

/-- A lookup that answers anything but `unlistedByte` has found a listed cell. -/
theorem mem_of_lookupCell_ne {cells : List Host.Cell} {a : Nat} (h : lookupCell cells a ≠ unlistedByte) :
    (a, lookupCell cells a) ∈ cells := by
  induction cells with
  | nil => exact absurd rfl h
  | cons d rest ih =>
    obtain ⟨k, w⟩ := d
    by_cases hk : a = k
    · simp [lookupCell, hk]
    · simp only [lookupCell, if_neg hk] at h ⊢
      exact List.mem_cons_of_mem _ (ih h)

/-- What a canonical memory lists, a memory that reads alike lists too. -/
theorem Memory.wf.mem_of_read_eq {m n : Memory} (hm : m.wf) (h : ∀ a, m.read a = n.read a) {c : Host.Cell}
    (hc : c ∈ m.cells) : c ∈ n.cells := by
  obtain ⟨hsorted, hcells⟩ := hm
  obtain ⟨hlt, hne⟩ := hcells c hc
  have hread : lookupCell m.cells c.1 = lookupCell n.cells c.1 := by
    have haddr : (BitVec.ofNat 8 c.1).toNat = c.1 := (BitVec.toNat_ofNat _ _).trans (Nat.mod_eq_of_lt hlt)
    simpa only [Memory.read, haddr] using h (BitVec.ofNat 8 c.1)
  have hfound : lookupCell n.cells c.1 = c.2 := hread ▸ lookupCell_of_mem hsorted hc
  have hlisted : (c.1, lookupCell n.cells c.1) ∈ n.cells := mem_of_lookupCell_ne (by rwa [hfound])
  rwa [hfound] at hlisted

/-- Settles O50: they list the same cells, and a list is determined by its members when their addresses rise. -/
theorem canonicalMemoriesThatReadAlikeAreEqual : Obligations.CanonicalMemoriesThatReadAlikeAreEqual := by
  intro m n hm hn h
  have hmem : ∀ c, c ∈ m.cells ↔ c ∈ n.cells := fun c =>
    ⟨hm.mem_of_read_eq h, hn.mem_of_read_eq fun a => (h a).symm⟩
  have hanti : Std.Antisymm fun c d : Host.Cell => c.1 < d.1 := ⟨fun _ _ hcd hdc => absurd hdc hcd.asymm⟩
  have hirrefl : Std.Irrefl fun c d : Host.Cell => c.1 < d.1 := ⟨fun c => lt_irrefl c.1⟩
  obtain ⟨hsortedM, -⟩ := hm
  obtain ⟨hsortedN, -⟩ := hn
  exact congrArg Memory.mk (hsortedM.eq_of_mem_iff hsortedN hmem)

/-! ### O40: fetching what was stored -/

/-- PUSH of a register other than SP stores its value just below SP (R111). -/
theorem memRead_effect_push {x : Byte} {rX : Reg} (hx : x.toNat = rX.val) (hrX : rX ≠ spIndex) (s : State) (a : Byte) :
    (effect (.push x) s).memRead a = if a = s.sp - 1 then s.getReg rX else s.memRead a := by
  have hval : s.growStack.getReg rX = s.getReg rX := getReg_setReg_ne s hrX.symm _
  have hsp : s.growStack.sp = s.sp - 1 := getReg_setReg_self s spIndex _
  rw [← hval, ← hsp, ← regOf_eq hx]
  exact memRead_memWrite s.growStack s.growStack.sp a _

/-- Settles O40: the next fetch is at `pc +₈ 2`, where PUSH stored; the two bytes after it are the old ones. -/
theorem storedByteIsFetchedByTheNextStep : Obligations.StoredByteIsFetchedByTheNextStep := by
  intro x rX s hx hrX hb hsp
  have hwf : (Instr.push x).wellFormed = true := by simp [Instr.wellFormed, Instr.regOperands, regOperandOk_of hx]
  have hown : s.params.strictBounds = true → ownBound (.push x) s = false := fun hs => by
    simpa [ownBound, State.stackFull, State.advanceLeaves] using fun hor => hb ⟨hs, hor⟩
  refine ⟨effect (.push x) s, exec_effect hwf hown, ?_⟩
  have hpc : (effect (.push x) s).pc = s.pc + 2 := effect_pc rfl
  have haddrX : s.pc + 2 + 1 = s.pc + 3 := by ring
  have haddrY : s.pc + 2 + 2 = s.pc + 4 := by ring
  simp only [State.fetchDecode, effect_params, hpc, haddrX, haddrY, memRead_effect_push hx hrX, hsp]
  simp

end Sys2Proof.Machine

/-! ## The encoding: decoder, encoder, assembler and the cycle (30_encoding.md) -/

namespace Sys2Proof

/-! ### O41, O42: the decoder and the encoder -/

/-- The first two of the bytes that start with an instruction's operands give the instruction back (R70, R71). -/
theorem instr_operands_append (i : Instr) (tail : List Byte) :
    i.mnemonic.instr ((i.operands ++ tail).getD 0 0) ((i.operands ++ tail).getD 1 0) = i := by
  cases i <;> rfl

/-- Settles O41: the lookup of the opcode finds the mnemonic, and the bytes after it give the operands. -/
theorem decodeOfEncode : Obligations.DecodeOfEncode := fun _ i tail ho =>
  decode_ok_iff.mpr ⟨i.mnemonic, lookupOpcode_of ho i.mnemonic, (instr_operands_append i tail).symm⟩

/-- The encoding of what is read from three bytes is as many of them as the mnemonic's width (R70, R74). -/
theorem encode_instr (o : Opcodes) (m : Mnemonic) (x y : Byte) :
    encode o (m.instr x y) = [o.of m, x, y].take m.width := by
  cases m <;> rfl

/-- Settles O42: the opcode the lookup finds is the byte looked up. -/
theorem encodeOfDecode : Obligations.EncodeOfDecode := by
  intro o op x y i h
  obtain ⟨m, hm, rfl⟩ := decode_ok_iff.mp h
  rw [encode_instr, of_lookupOpcode hm, Instr.width, instr_mnemonic]

/-! ### O43, O44: the default binding -/

/-- Settles O43: thirteen rows of the table of R72. -/
theorem defaultBindingMeetsItsConstraints : Obligations.DefaultBindingMeetsItsConstraints := by
  unfold Obligations.DefaultBindingMeetsItsConstraints
  decide

/-- Settles O44: the decoder runs on each word. -/
theorem wordsOfTheSpecDecode : Obligations.WordsOfTheSpecDecode :=
  ⟨rfl, rfl, rfl, rfl, rfl, rfl, rfl, rfl, rfl⟩

/-! ### The byte values that are no opcode -/

/-- In a binding that meets R73, 0x00 is no opcode. -/
theorem lookupOpcode_zero {o : Opcodes} (h : o.wellFormed = true) : lookupOpcode o 0 = none := by
  simp only [Opcodes.wellFormed, Opcodes.toList_eq, Bool.and_eq_true, Bool.not_eq_true', List.contains_eq_mem,
    decide_eq_false_iff_not] at h
  obtain ⟨-, hzero⟩ := h
  exact lookupOpcode_eq_none.mpr fun m e => hzero (List.mem_map.mpr ⟨m, mem_allMnemonics m, e⟩)

/-- The lookup finds something exactly when the byte is an opcode of the binding (R75). -/
theorem lookupOpcode_isSome_iff {o : Opcodes} {op : Byte} : (lookupOpcode o op).isSome = true ↔ ∃ m, o.of m = op := by
  rw [← not_iff_not, Bool.not_eq_true, Option.isSome_eq_false_iff, Option.isNone_iff_eq_none, lookupOpcode_eq_none,
    not_exists]

/-- The byte values the lookup finds are, in some order, the thirteen opcodes of the binding. -/
theorem filter_isSome_lookupOpcode_perm {o : Opcodes} (h : o.wellFormed = true) :
    ((List.range 256).filter fun n => (lookupOpcode o (BitVec.ofNat 8 n)).isSome).Perm
      ((allMnemonics.map o.of).map BitVec.toNat) := by
  refine (List.perm_ext_iff_of_nodup (List.nodup_range.filter _)
    ((Opcodes.nodup h).map fun _ _ => BitVec.eq_of_toNat_eq)).mpr fun n => ?_
  simp only [List.mem_filter, List.mem_range, lookupOpcode_isSome_iff, List.mem_map, exists_exists_and_eq_and]
  constructor
  · rintro ⟨hn, m, hm⟩
    exact ⟨m, mem_allMnemonics m, by rw [hm, BitVec.toNat_ofNat, Nat.mod_eq_of_lt hn]⟩
  · rintro ⟨m, -, rfl⟩
    exact ⟨(o.of m).isLt, m, by rw [BitVec.ofNat_toNat, BitVec.setWidth_eq]⟩

/-- In a binding that meets R73, all but thirteen of the 256 byte values are no opcode (R78). -/
theorem countP_isNone_lookupOpcode {o : Opcodes} (h : o.wellFormed = true) :
    ((List.range 256).countP fun n => (lookupOpcode o (BitVec.ofNat 8 n)).isNone) = 243 := by
  have hfound : ((List.range 256).countP fun n => (lookupOpcode o (BitVec.ofNat 8 n)).isSome) = 13 := by
    rw [List.countP_eq_length_filter, (filter_isSome_lookupOpcode_perm h).length_eq]
    rfl
  have hall := List.length_eq_countP_add_countP (fun n => (lookupOpcode o (BitVec.ofNat 8 n)).isSome)
    (l := List.range 256)
  simp only [List.length_range, hfound, Bool.not_eq_true, Option.isSome_eq_false_iff, Bool.decide_eq_true] at hall
  omega

end Sys2Proof

namespace Sys2Proof.Machine

/-! ### The fetch bound, the opcode check and the register check of a step -/

/-- The fetch bound of R155, as the statements write it. -/
theorem fetchBound_iff (s : State) :
    (s.params.strictBounds && s.fetchLeaves) = true ↔ s.strict ∧ 254 ≤ s.pc.toNat := by
  simp only [State.fetchLeaves, Bool.and_eq_true, decide_eq_true_eq]
  exact and_congr_right fun _ => by omega

theorem fetchBound_eq_false {s : State} (h : ¬ (s.strict ∧ 254 ≤ s.pc.toNat)) :
    (s.params.strictBounds && s.fetchLeaves) = false := by
  rwa [← Bool.not_eq_true, fetchBound_iff]

/-- An instruction with a register index of 8 or more raises InvalidRegister, whatever the instruction (R79). -/
theorem exec_of_not_wellFormed {i : Instr} (h : i.wellFormed = false) (s : State) :
    exec i s = .next (s.raiseFatal .invalidRegister) := by
  simp [exec_eq, h]

/-- A well-formed instruction that enters Fatal raises BoundsViolation (R80). -/
theorem faultCause_of_exec_wellFormed {i : Instr} {s t : State} (hw : i.wellFormed = true) (hs : s.run ≠ .fatal)
    (h : exec i s = .next t) (ht : t.run = .fatal) : t.faultCause = FaultCause.code .boundsViolation := by
  rcases exec_cases h with ⟨hw', -⟩ | ⟨-, -, -, rfl⟩ | ⟨-, -, rfl⟩
  · simp [hw] at hw'
  · rfl
  · exact absurd ht (effect_run_ne_fatal hs)

/-- Settles O14: a bad index is the first check of every meaning, and the only one that raises InvalidRegister. -/
theorem invalidRegisterOperandIsFatal : Obligations.InvalidRegisterOperandIsFatal := by
  refine fun i s => ⟨fun ⟨x, hx, hge⟩ => ?_, fun hok hs t h ht => ?_⟩
  · have hw : i.wellFormed = false := by
      rw [← Bool.not_eq_true, wellFormed_iff]
      exact fun hall => absurd (hall x hx) (by omega)
    have hexec := exec_of_not_wellFormed hw s
    have henters := raiseFatal_enters .invalidRegister s
    exact ⟨⟨_, hexec, henters⟩, fun hr hb hd =>
      ⟨_, (step_of_decoded hr (fetchBound_eq_false hb) hd).trans hexec, henters⟩⟩
  · rw [faultCause_of_exec_wellFormed ((wellFormed_iff i).mpr hok) hs h ht]
    decide

/-- Settles O15: the lookup finds no mnemonic, so the decoder refuses whatever the other bytes are. -/
theorem unknownOpcodeIsFatal : Obligations.UnknownOpcodeIsFatal := by
  obtain ⟨hwf, -⟩ := defaultBindingMeetsItsConstraints
  refine ⟨fun s hr hb hop => ?_, countP_isNone_lookupOpcode hwf, lookupOpcode_zero hwf⟩
  have hd : s.fetchDecode = .error (.unknownInstruction (s.memRead s.pc)) :=
    decode_of_lookup_none (lookupOpcode_eq_none.mpr hop) _ _
  exact ⟨_, step_of_unknown hr (fetchBound_eq_false hb) hd, raiseFatal_enters .unknownInstruction s⟩

/-- Settles O21: the checks of a step, in their order. -/
theorem firstFailingCheckGivesTheCause : Obligations.FirstFailingCheckGivesTheCause := by
  intro s t hr h ht
  have hs : s.run ≠ .fatal := by simp [hr]
  rcases step_cases h with ⟨hn, -⟩ | ⟨-, hb, rfl⟩ | ⟨-, hb, ⟨e, hd⟩, rfl⟩ | ⟨-, hb, i, hd, he⟩
  · exact absurd hr hn
  · rw [if_pos ((fetchBound_iff s).mp hb)]
    rfl
  · rw [if_neg (by simp [← fetchBound_iff, hb]), hd]
    rfl
  · rw [if_neg (by simp [← fetchBound_iff, hb]), hd]
    cases hw : i.wellFormed with
    | true => exact (faultCause_of_exec_wellFormed hw hs he ht).trans (if_pos hw).symm
    | false =>
      rw [exec_of_not_wellFormed hw] at he
      injection he with he
      simp only [← he, hw, Bool.false_eq_true, if_false]
      rfl

/-! ### O23, O24, O28: the cycle -/

/-- Settles O23: the fetch bound is met and the bytes decode. -/
theorem stepRunsTheDecodedInstruction : Obligations.StepRunsTheDecodedInstruction := fun _ _ hr hb hd =>
  step_of_decoded hr (fetchBound_eq_false hb) hd

/-- Settles O24: each check that fails and each meaning answers a next state. -/
theorem everyStepAnswersANextState : Obligations.EveryStepAnswersANextState := exists_step

/-- Settles O28: what does not end in Fatal is the effect, which advances pc. -/
theorem pcAdvancesByTheWidth : Obligations.PcAdvancesByTheWidth := by
  intro i s t hadv _ h ht
  rcases exec_raises_or_effect h with ⟨c, -, rfl⟩ | ⟨-, rfl⟩
  · exact absurd (raiseFatal_run s c) ht
  · rw [effect_pc hadv, BitVec.toNat_add, BitVec.toNat_ofNat, Nat.add_mod_mod]

/-! ### O45: the assembler -/

/-- What a line keeps together as one token: characters, at least one, none of them a blank or a comma (R84). -/
def IsToken (w : List Char) : Prop := w ≠ [] ∧ ∀ c ∈ w, c ≠ ' ' ∧ c ≠ ','

/-- Characters that are no blank and no comma are added to the token being read. -/
theorem tokensFrom_append (word : List Char) {w : List Char} (h : ∀ c ∈ w, c ≠ ' ' ∧ c ≠ ',') (rest : List Char) :
    tokensFrom word (w ++ rest) = tokensFrom (word ++ w) rest := by
  induction w generalizing word with
  | nil => simp
  | cons c w ih =>
    obtain ⟨⟨hblank, hcomma⟩, hw⟩ := List.forall_mem_cons.mp h
    simp [tokensFrom, hblank, hcomma, ih _ hw]

theorem tokensFrom_blank (rest : List Char) : tokensFrom [] (' ' :: rest) = tokensFrom [] rest := rfl

/-- The end of the line ends a token. -/
theorem IsToken.tokensFrom_end {w : List Char} (h : IsToken w) : tokensFrom [] w = [w] := by
  obtain ⟨hne, hw⟩ := h
  have happ := tokensFrom_append [] hw []
  simpa [tokensFrom, hne] using happ

/-- A blank ends a token. -/
theorem IsToken.tokensFrom_append_blank {w : List Char} (h : IsToken w) (rest : List Char) :
    tokensFrom [] (w ++ ' ' :: rest) = w :: tokensFrom [] rest := by
  obtain ⟨hne, hw⟩ := h
  simp [tokensFrom_append [] hw, tokensFrom, hne]

/-- A comma ends a token and is a token of its own. -/
theorem IsToken.tokensFrom_append_comma {w : List Char} (h : IsToken w) (rest : List Char) :
    tokensFrom [] (w ++ ',' :: rest) = w :: [','] :: tokensFrom [] rest := by
  obtain ⟨hne, hw⟩ := h
  simp [tokensFrom_append [] hw, tokensFrom, hne]

theorem ne_blank_and_ne_comma_of_isDigit {c : Char} (h : c.isDigit = true) : c ≠ ' ' ∧ c ≠ ',' := by
  constructor <;> rintro rfl <;> exact absurd h (by decide)

theorem mnemonicName_isToken (m : Mnemonic) : IsToken (mnemonicName m).toList := by
  cases m <;> simp [IsToken, mnemonicName]

theorem regName_isToken (x : RegOperand) : IsToken (regName x) := by
  simp [IsToken, regName]

theorem immName_isToken (v : Immediate) : IsToken (immName v) :=
  ⟨Nat.toDigits_ne_nil, fun _ hc =>
    ne_blank_and_ne_comma_of_isDigit (Nat.isDigit_of_mem_toDigits (by decide) (by decide) hc)⟩

theorem parseMnemonic_mnemonicName (m : Mnemonic) : parseMnemonic (mnemonicName m).toList = some m := by
  cases m <;> rfl

theorem parseReg_regName {x : RegOperand} (h : x.toNat < 8) : parseReg (regName x) = some x := by
  have hdigit : ∀ n < 8, digitValue 8 n.digitChar = some n := by decide
  simp [parseReg, regName, hdigit _ h]

/-- A decimal digit reads as its value. -/
theorem digitValue_of_isDigit {c : Char} (h : c.isDigit = true) : digitValue 10 c = some (c.toNat - '0'.toNat) := by
  have hrange : '0' ≤ c ∧ c ≤ '9' := (Bool.and_eq_true_iff.mp h).imp of_decide_eq_true of_decide_eq_true
  have hlt : c.toNat - '0'.toNat < 10 := by
    obtain ⟨-, hle⟩ := hrange
    have hle : c.toNat ≤ 57 := hle
    have hzero : '0'.toNat = 48 := rfl
    omega
  simp only [digitValue, if_pos hrange, if_pos hlt]

/-- Decimal digits read as the number the library's `Nat.ofDigitChars` gives them. -/
theorem digitsValue_of_isDigit (acc : Nat) {cs : List Char} (h : ∀ c ∈ cs, c.isDigit = true) :
    digitsValue 10 acc cs = some (Nat.ofDigitChars 10 cs acc) := by
  induction cs generalizing acc with
  | nil => rfl
  | cons c cs ih =>
    obtain ⟨hc, hcs⟩ := List.forall_mem_cons.mp h
    simp [digitsValue, digitValue_of_isDigit hc, ih _ hcs, Nat.ofDigitChars_cons, Nat.mul_comm]

/-- A literal of decimal digits is decimal: its second character is neither `x` nor `b`. -/
theorem literalValue_of_isDigit {cs : List Char} (hne : cs ≠ []) (h : ∀ c ∈ cs, c.isDigit = true) :
    literalValue cs = digitsValue 10 0 cs := by
  unfold literalValue
  split
  · exact absurd (h 'x' (by simp)) (by decide)
  · exact absurd (h 'b' (by simp)) (by decide)
  · rfl
  · exact absurd rfl hne

theorem parseImm_immName (v : Immediate) : parseImm (immName v) = some v := by
  have hdigits : ∀ c ∈ immName v, c.isDigit = true := fun _ => Nat.isDigit_of_mem_toDigits (by decide) (by decide)
  have hvalue : literalValue (immName v) = some v.toNat := by
    rw [literalValue_of_isDigit (cs := immName v) Nat.toDigits_ne_nil hdigits, digitsValue_of_isDigit 0 hdigits, immName,
      Nat.ofDigitChars_toDigits (by decide) (by decide)]
  simp [parseImm, hvalue, v.isLt]

theorem tokensFrom_oneOperand {n a : List Char} (hn : IsToken n) (ha : IsToken a) :
    tokensFrom [] (n ++ ' ' :: a) = [n, a] := by
  rw [hn.tokensFrom_append_blank, ha.tokensFrom_end]

theorem tokensFrom_twoOperands {n a b : List Char} (hn : IsToken n) (ha : IsToken a) (hb : IsToken b) :
    tokensFrom [] (n ++ (' ' :: a ++ [',', ' '] ++ b)) = [n, a, [','], b] := by
  simp only [List.cons_append, List.append_assoc, List.nil_append]
  rw [hn.tokensFrom_append_blank, ha.tokensFrom_append_comma, tokensFrom_blank, hb.tokensFrom_end]

/-- The tokens of an instruction's operands. -/
def operandTokens : Instr → List (List Char)
  | .ldi x imm => [regName x, [','], immName imm]
  | .add x y | .mul x y | .cmp x y => [regName x, [','], regName y]
  | .prn x | .pop x | .push x | .call x | .jmp x | .jeq x | .jne x => [regName x]
  | .ret | .hlt => []

/-- The line of an instruction splits into its mnemonic and the tokens of its operands. -/
theorem tokensFrom_asmLine (i : Instr) :
    tokensFrom [] (asmLine i) = (mnemonicName i.mnemonic).toList :: operandTokens i := by
  have hname := mnemonicName_isToken i.mnemonic
  cases i with
  | ldi x imm => exact tokensFrom_twoOperands hname (regName_isToken x) (immName_isToken imm)
  | add x y | mul x y | cmp x y => exact tokensFrom_twoOperands hname (regName_isToken x) (regName_isToken y)
  | prn x | pop x | push x | call x | jmp x | jeq x | jne x => exact tokensFrom_oneOperand hname (regName_isToken x)
  | ret | hlt => rfl

theorem parseOperands_oneReg {m : Mnemonic} (hm : m.width = 2) {x : RegOperand} (hx : x.toNat < 8) :
    parseOperands m [regName x] = some (m.instr x 0) := by
  simp [parseOperands, hm, parseReg_regName hx]

theorem parseOperands_twoRegs {m : Mnemonic} (hm : m.width = 3) (hldi : m ≠ .ldi) {x y : RegOperand}
    (hx : x.toNat < 8) (hy : y.toNat < 8) :
    parseOperands m [regName x, [','], regName y] = some (m.instr x y) := by
  simp [parseOperands, hm, hldi, parseReg_regName hx, parseReg_regName hy]

theorem parseOperands_ldi {x : RegOperand} (hx : x.toNat < 8) (imm : Immediate) :
    parseOperands .ldi [regName x, [','], immName imm] = some (.ldi x imm) := by
  simp [parseOperands, Mnemonic.width, parseReg_regName hx, parseImm_immName, Mnemonic.instr]

/-- The operand tokens of a well-formed instruction read as its operands. -/
theorem parseOperands_operandTokens {i : Instr} (h : i.wellFormed = true) :
    parseOperands i.mnemonic (operandTokens i) = some i := by
  rw [wellFormed_iff] at h
  cases i with
  | ldi x imm => exact parseOperands_ldi (h x (.head _)) imm
  | add x y => exact parseOperands_twoRegs (m := .add) rfl nofun (h x (.head _)) (h y (.tail _ (.head _)))
  | mul x y => exact parseOperands_twoRegs (m := .mul) rfl nofun (h x (.head _)) (h y (.tail _ (.head _)))
  | cmp x y => exact parseOperands_twoRegs (m := .cmp) rfl nofun (h x (.head _)) (h y (.tail _ (.head _)))
  | prn x | pop x | push x | call x | jmp x | jeq x | jne x => exact parseOperands_oneReg rfl (h x (.head _))
  | ret | hlt => rfl

theorem parseLine_asmLine {i : Instr} (h : i.wellFormed = true) : parseLine (asmLine i) = some i := by
  simp only [parseLine, tokensFrom_asmLine, parseMnemonic_mnemonicName, parseOperands_operandTokens h]

/-- Settles O45: the line reads as its instruction. -/
theorem assembledLineIsTheEncoding : Obligations.AssembledLineIsTheEncoding := fun o i h => by
  rw [assemble, parseLine_asmLine h, Option.map_some]

end Sys2Proof.Machine

/-! ## Load-immediate and print (40_load_print.md) -/

namespace Sys2Proof.Machine

/-! ### Completing, and what a completed instruction leaves alone -/

/-- A register operand that names a register passes the check of R79, when it is the only one. -/
theorem wellFormed_of_oneReg {i : Instr} {x : RegOperand} {r : Reg} (hi : i.regOperands = [x]) (hx : x.toNat = r.val) :
    i.wellFormed = true := by
  simp [Instr.wellFormed, hi, regOperandOk_of hx]

/-- A well-formed instruction completes when what its own bound implies is excluded under `STRICT_BOUNDS` (R80). -/
theorem exec_effect_of_not_strict_and {i : Instr} {s : State} {violated : Prop} (hw : i.wellFormed = true)
    (hbound : ownBound i s = true → violated) (hb : ¬ (s.strict ∧ violated)) : exec i s = .next (effect i s) :=
  exec_effect hw fun hs => Bool.eq_false_iff.mpr fun hv => hb ⟨hs, hbound hv⟩

/-- Every effect but HLT's leaves the run state, the fault record and the parameters (R27, R28, R34). -/
theorem effect_sameControl {i : Instr} (h : i ≠ .hlt) (s : State) : SameControl s (effect i s) :=
  ⟨by rw [effect_run, if_neg h], effect_faultCause i s, effect_faultPc i s, effect_params i s⟩

/-- Every effect but PUSH's and CALL's leaves the whole memory (R50, R76). -/
theorem effect_sameMemory {i : Instr} (hpush : i.mnemonic ≠ .push) (hcall : i.mnemonic ≠ .call) (s : State) :
    SameMemory s (effect i s) := fun a =>
  congrArg (Memory.read · a) (effect_mem_of_ne_push_call hpush hcall s)

/-- A register write leaves the other registers (R21). -/
theorem setReg_sameRegsBut (s : State) (r : Reg) (v : Byte) : SameRegsBut [r] s (s.setReg r v) := fun _ hq =>
  getReg_setReg_ne s (Ne.symm (List.ne_of_not_mem_cons hq)) v

/-! ### O1, O2: LDI and PRN -/

/-- The strict bound of LDI is its advance (R156). -/
theorem ownBound_ldi (x : RegOperand) (imm : Immediate) (s : State) :
    ownBound (.ldi x imm) s = true ↔ 255 < s.pc.toNat + 3 := decide_eq_true_iff

/-- The strict bound of PRN is its advance (R156). -/
theorem ownBound_prn (x : RegOperand) (s : State) : ownBound (.prn x) s = true ↔ 255 < s.pc.toNat + 2 :=
  decide_eq_true_iff

/-- Settles O1: LDI completes, and its effect is one register write and the advance of pc. -/
theorem ldiWritesItsImmediate : Obligations.LdiWritesItsImmediate := by
  intro x imm rX s hx hb
  have hexec := exec_effect_of_not_strict_and (wellFormed_of_oneReg rfl hx) (ownBound_ldi x imm s).mp hb
  obtain rfl := regOf_eq hx
  refine ⟨_, hexec, getReg_setReg_self s _ imm, effect_pc rfl, setReg_sameRegsBut s _ imm, effect_sameFlags ?_ s,
    effect_sameMemory ?_ ?_ s, effect_out_of_ne_prn ?_ s, effect_sameControl ?_ s⟩ <;> nofun

/-- Settles O2: PRN completes, and its effect is one byte emitted and the advance of pc. -/
theorem prnEmitsTheRegister : Obligations.PrnEmitsTheRegister := by
  intro x rX s hx hb
  have hexec := exec_effect_of_not_strict_and (wellFormed_of_oneReg rfl hx) (ownBound_prn x s).mp hb
  obtain rfl := regOf_eq hx
  refine ⟨_, hexec, emit_out s _, effect_pc rfl, emit_getReg s (s.getReg (regOf x)), effect_sameFlags ?_ s,
    effect_sameMemory ?_ ?_ s, effect_sameControl ?_ s⟩ <;> nofun

end Sys2Proof.Machine

/-! ## The ALU (41_alu.md) -/

namespace Sys2Proof.Machine

/-! ### The checks of a two-register instruction -/

/-- Two register operands that name registers pass the check of R79. -/
theorem wellFormed_of_twoRegs {i : Instr} {x y : RegOperand} {rX rY : Reg} (hi : i.regOperands = [x, y])
    (hx : x.toNat = rX.val) (hy : y.toNat = rY.val) : i.wellFormed = true := by
  simp [Instr.wellFormed, hi, regOperandOk_of hx, regOperandOk_of hy]

/-- The strict bounds of ADD are its exact sum and its advance (R156, R158). -/
theorem ownBound_add (x y : RegOperand) (s : State) :
    ownBound (.add x y) s = true ↔
      255 < (s.getReg (regOf x)).toNat + (s.getReg (regOf y)).toNat ∨ 255 < s.pc.toNat + 3 := by
  simp [ownBound, sumLeaves, State.advanceLeaves]

/-- The strict bounds of MUL are its exact product and its advance (R156, R158). -/
theorem ownBound_mul (x y : RegOperand) (s : State) :
    ownBound (.mul x y) s = true ↔
      255 < (s.getReg (regOf x)).toNat * (s.getReg (regOf y)).toNat ∨ 255 < s.pc.toNat + 3 := by
  simp [ownBound, productLeaves, State.advanceLeaves]

/-- The strict bound of CMP is its advance (R156). -/
theorem ownBound_cmp (x y : RegOperand) (s : State) : ownBound (.cmp x y) s = true ↔ 255 < s.pc.toNat + 3 :=
  decide_eq_true_iff

/-! ### O3, O4: ADD and MUL -/

/-- One register write and an advance of pc leave everything else (R76). -/
theorem setReg_advance_frame (s : State) (r : Reg) (v : Byte) (n : Nat) {t : State}
    (ht : t = (s.setReg r v).advance n) :
    SameRegsBut [r] s t ∧ SameFlags s t ∧ SameMemory s t ∧ SameOutput s t ∧ SameControl s t := by
  subst ht
  exact ⟨setReg_sameRegsBut s r v, ⟨rfl, rfl, rfl⟩, fun _ => rfl, rfl, rfl, rfl, rfl, rfl⟩

theorem getReg_effect_add (x y : RegOperand) (s : State) :
    (effect (.add x y) s).getReg (regOf x) = s.getReg (regOf x) + s.getReg (regOf y) :=
  getReg_setReg_self s _ _

theorem getReg_effect_mul (x y : RegOperand) (s : State) :
    (effect (.mul x y) s).getReg (regOf x) = s.getReg (regOf x) * s.getReg (regOf y) :=
  getReg_setReg_self s _ _

/-- Settles O3: ADD completes, and its effect is one register write, of the sum of two bytes, and the advance of pc. -/
theorem addWritesTheSumModulo256 : Obligations.AddWritesTheSumModulo256 := by
  intro x y rX rY s hx hy hb
  have hw : (Instr.add x y).wellFormed = true := wellFormed_of_twoRegs rfl hx hy
  obtain rfl := regOf_eq hx
  obtain rfl := regOf_eq hy
  refine ⟨_, exec_effect_of_not_strict_and hw (ownBound_add x y s).mp hb, ?_, effect_pc rfl,
    setReg_advance_frame s _ _ 3 rfl⟩
  rw [getReg_effect_add, BitVec.toNat_add]

/-- Settles O4: MUL completes, and its effect is one register write, of the product of two bytes, and the advance of
pc. -/
theorem mulWritesTheProductModulo256 : Obligations.MulWritesTheProductModulo256 := by
  intro x y rX rY s hx hy hb
  have hw : (Instr.mul x y).wellFormed = true := wellFormed_of_twoRegs rfl hx hy
  obtain rfl := regOf_eq hx
  obtain rfl := regOf_eq hy
  refine ⟨_, exec_effect_of_not_strict_and hw (ownBound_mul x y s).mp hb, ?_, effect_pc rfl,
    setReg_advance_frame s _ _ 3 rfl⟩
  rw [getReg_effect_mul, BitVec.toNat_mul]

/-! ### O38: exchanging the operands -/

/-- A meaning that leaves the machine Running has had its effect. -/
theorem eq_effect_of_exec_running {i : Instr} {s t : State} (h : exec i s = .next t) (ht : t.run = .running) :
    t = effect i s := by
  rcases exec_raises_or_effect h with ⟨c, -, rfl⟩ | ⟨-, rfl⟩
  · simp at ht
  · rfl

/-- Two instructions that write one value to two registers, and are otherwise the advance of pc, agree in value, and
each keeps the register of the other. -/
theorem exec_agree_of_same_value {i j : Instr} {s : State} {rX rY : Reg} {v w : Byte}
    (hi : effect i s = (s.setReg rX v).advance 3) (hj : effect j s = (s.setReg rY w).advance 3) (hvw : v = w)
    (hne : rX ≠ rY) (t u : State) (ht : exec i s = .next t) (hu : exec j s = .next u) (htr : t.run = .running)
    (hur : u.run = .running) :
    t.getReg rX = u.getReg rY ∧ t.getReg rY = s.getReg rY ∧ u.getReg rX = s.getReg rX := by
  obtain rfl := (eq_effect_of_exec_running ht htr).trans hi
  obtain rfl := (eq_effect_of_exec_running hu hur).trans hj
  simp [hvw, getReg_setReg_ne s hne, getReg_setReg_ne s hne.symm]

/-- Settles O38: the sum and the product of two bytes do not depend on their order. -/
theorem addAndMulCommute : Obligations.AddAndMulCommute := by
  intro x y rX rY s hx hy hne
  obtain rfl := regOf_eq hx
  obtain rfl := regOf_eq hy
  exact ⟨exec_agree_of_same_value rfl rfl (BitVec.add_comm _ _) hne,
    exec_agree_of_same_value rfl rfl (BitVec.mul_comm _ _) hne⟩

/-! ### O5: CMP -/

/-- CMP of a smaller byte with a greater one sets L (R102). -/
theorem compareFlags_of_lt (s : State) {a b : Byte} (h : a.toNat < b.toNat) :
    s.compareFlags a b = { s with flagL := true } := if_pos h

/-- CMP of a greater byte with a smaller one sets G (R102). -/
theorem compareFlags_of_gt (s : State) {a b : Byte} (h : b.toNat < a.toNat) :
    s.compareFlags a b = { s with flagG := true } := by
  rw [State.compareFlags, if_neg h.asymm, if_pos h]

/-- CMP of equal bytes sets E (R102). -/
theorem compareFlags_of_eq (s : State) {a b : Byte} (h : a.toNat = b.toNat) :
    s.compareFlags a b = { s with flagE := true } := by
  rw [State.compareFlags, if_neg h.not_lt, if_neg h.not_gt]

/-- CMP compares and advances pc (R102). -/
theorem effect_cmp (x y : RegOperand) (s : State) :
    effect (.cmp x y) s = (s.compareFlags (s.getReg (regOf x)) (s.getReg (regOf y))).advance 3 := rfl

/-- Settles O5: CMP completes, the order of the two bytes decides the flag, and what it leaves alone is what
`compareFlags` does. -/
theorem cmpSetsOneFlagAndKeepsTheOthers : Obligations.CmpSetsOneFlagAndKeepsTheOthers := by
  intro x y rX rY s hx hy hb
  have hw : (Instr.cmp x y).wellFormed = true := wellFormed_of_twoRegs rfl hx hy
  obtain rfl := regOf_eq hx
  obtain rfl := regOf_eq hy
  have hmem := effect_sameMemory (i := .cmp x y) nofun nofun s
  have hout := effect_out_of_ne_prn (i := .cmp x y) nofun s
  have hcontrol := effect_sameControl (i := .cmp x y) nofun s
  refine ⟨_, exec_effect_of_not_strict_and hw (ownBound_cmp x y s).mp hb, effect_pc rfl, fun hlt => ?_, fun hgt => ?_,
    fun heq => ?_, compareFlags_getReg s _ _, hmem, hout, hcontrol⟩
  · rw [effect_cmp, compareFlags_of_lt s hlt]
    exact ⟨rfl, rfl, rfl⟩
  · rw [effect_cmp, compareFlags_of_gt s hgt]
    exact ⟨rfl, rfl, rfl⟩
  · rw [effect_cmp, compareFlags_of_eq s heq]
    exact ⟨rfl, rfl, rfl⟩

end Sys2Proof.Machine

/-! ## The stack (42_stack.md) -/

namespace Sys2Proof.Machine

/-! ### When PUSH and POP complete -/

/-- The strict bounds of PUSH are the full stack and its advance (R156, R157). -/
theorem ownBound_push (x : RegOperand) (s : State) :
    ownBound (.push x) s = true ↔ s.sp = 0 ∨ 255 < s.pc.toNat + 2 := by
  simp [ownBound, State.stackFull, State.advanceLeaves]

/-- The strict bounds of POP are the empty stack and its advance (R156, R157). -/
theorem ownBound_pop (x : RegOperand) (s : State) :
    ownBound (.pop x) s = true ↔ s.sp = 255 ∨ 255 < s.pc.toNat + 2 := by
  simp [ownBound, State.stackEmpty, State.advanceLeaves]

theorem exec_push {x : Byte} {rX : Reg} {s : State} (hx : x.toNat = rX.val)
    (hb : ¬ (s.strict ∧ (s.sp = 0 ∨ 255 < s.pc.toNat + 2))) : exec (.push x) s = .next (effect (.push x) s) :=
  exec_effect_of_not_strict_and (wellFormed_of_oneReg rfl hx) (ownBound_push x s).mp hb

theorem exec_pop {x : Byte} {rX : Reg} {s : State} (hx : x.toNat = rX.val)
    (hb : ¬ (s.strict ∧ (s.sp = 255 ∨ 255 < s.pc.toNat + 2))) : exec (.pop x) s = .next (effect (.pop x) s) :=
  exec_effect_of_not_strict_and (wellFormed_of_oneReg rfl hx) (ownBound_pop x s).mp hb

/-! ### O7: PUSH -/

/-- After the decrement, SP reads as the decremented value and every other register as before. -/
theorem getReg_growStack (s : State) (r : Reg) :
    s.growStack.getReg r = if r = spIndex then s.sp - 1 else s.getReg r := by
  simp only [eq_comm (a := r)]
  exact getReg_setReg s spIndex r _

theorem sp_effect_push (x : RegOperand) (s : State) : (effect (.push x) s).sp = s.sp - 1 :=
  getReg_setReg_self s spIndex _

/-- PUSH writes no register but SP, not even the one it names. -/
theorem effect_push_sameRegsBut (x : RegOperand) (s : State) : SameRegsBut [spIndex] s (effect (.push x) s) :=
  setReg_sameRegsBut s spIndex _

/-- PUSH stores its register as it reads after the decrement, just below the old SP. -/
theorem memRead_effect_push_top (x : RegOperand) (s : State) :
    (effect (.push x) s).memRead (s.sp - 1) = s.growStack.getReg (regOf x) := by
  have hsp : s.growStack.sp = s.sp - 1 := getReg_setReg_self s spIndex _
  rw [← hsp]
  exact memRead_memWrite_self s.growStack _ _

/-- Settles O7: PUSH completes, and its effect is one write of SP, one store at the new SP and the advance of pc. -/
theorem pushStoresAtTheDecrementedSp : Obligations.PushStoresAtTheDecrementedSp := by
  intro x rX s hx hb
  have htop : (effect (.push x) s).memRead (s.sp - 1) = if rX = spIndex then s.sp - 1 else s.getReg rX := by
    rw [memRead_effect_push_top, getReg_growStack, regOf_eq hx]
  refine ⟨_, exec_push hx hb, effect_pc rfl, sp_effect_push x s, htop, effect_push_sameRegsBut x s,
    effect_sameFlags ?_ s, effect_sameMemoryBut _ s, effect_out_of_ne_prn ?_ s, effect_sameControl ?_ s⟩ <;> nofun

/-! ### O6: POP -/

/-- POP increments SP as it stands after the write of the popped byte. -/
theorem sp_effect_pop (x : RegOperand) (s : State) :
    (effect (.pop x) s).sp = (s.setReg (regOf x) (s.memRead s.sp)).sp + 1 :=
  getReg_setReg_self _ spIndex _

theorem getReg_effect_pop {x : RegOperand} (hx : regOf x ≠ spIndex) (s : State) :
    (effect (.pop x) s).getReg (regOf x) = s.memRead s.sp :=
  (getReg_setReg_ne _ hx.symm _).trans (getReg_setReg_self s _ _)

theorem sp_effect_pop_of_ne {x : RegOperand} (hx : regOf x ≠ spIndex) (s : State) :
    (effect (.pop x) s).sp = s.sp + 1 :=
  (sp_effect_pop x s).trans (congrArg (· + 1) (getReg_setReg_ne s hx _))

/-- POP R7 leaves the popped value plus one in SP. -/
theorem sp_effect_pop_of_eq {x : RegOperand} (hx : regOf x = spIndex) (s : State) :
    (effect (.pop x) s).sp = s.memRead s.sp + 1 := by
  rw [sp_effect_pop, hx]
  exact congrArg (· + 1) (getReg_setReg_self s _ _)

theorem effect_pop_sameRegsBut (x : RegOperand) (s : State) :
    SameRegsBut [regOf x, spIndex] s (effect (.pop x) s) := by
  intro r hr
  simp only [List.mem_cons, List.not_mem_nil, or_false, not_or] at hr
  obtain ⟨hx, hsp⟩ := hr
  exact (getReg_setReg_ne _ (Ne.symm hsp) _).trans (getReg_setReg_ne s (Ne.symm hx) _)

/-- Settles O6: POP completes, and its effect is the write of the popped byte, then that of SP, then the advance of
pc. -/
theorem popReadsThenIncrementsSp : Obligations.PopReadsThenIncrementsSp := by
  intro x rX s hx hb
  have hexec := exec_pop hx hb
  obtain rfl := regOf_eq hx
  refine ⟨_, hexec, effect_pc rfl, fun hne => ⟨getReg_effect_pop hne s, sp_effect_pop_of_ne hne s⟩,
    fun heq => sp_effect_pop_of_eq heq s, effect_pop_sameRegsBut x s, effect_sameFlags ?_ s,
    effect_sameMemory ?_ ?_ s, effect_out_of_ne_prn ?_ s, effect_sameControl ?_ s⟩ <;> nofun

/-! ### O36: PUSH, then POP -/

theorem execSeq_cons_of_next {i : Instr} {s t : State} (h : exec i s = .next t) (is : List Instr) :
    execSeq (i :: is) s = execSeq is t := by
  simp only [execSeq, h]

/-- Where a PUSH and the POP after it have room, neither strict bound of the POP is violated after the PUSH. -/
theorem pop_bound_after_push {s : State} (hb : ¬ (s.strict ∧ (s.sp = 0 ∨ 255 < s.pc.toNat + 4))) (x : RegOperand) :
    ¬ ((effect (.push x) s).strict ∧
      ((effect (.push x) s).sp = 255 ∨ 255 < (effect (.push x) s).pc.toNat + 2)) := by
  have hpc : (effect (.push x) s).pc = s.pc + 2 := effect_pc rfl
  rw [State.strict, effect_params, sp_effect_push, hpc]
  rintro ⟨hs, hsp | hleaves⟩
  · exact hb ⟨hs, .inl (by bv_omega)⟩
  · exact hb ⟨hs, .inr (by bv_omega)⟩

/-- A POP that does not name SP undoes the move of SP by the PUSH before it. -/
theorem sp_effect_pop_effect_push {y : RegOperand} (hy : regOf y ≠ spIndex) (x : RegOperand) (s : State) :
    (effect (.pop y) (effect (.push x) s)).sp = s.sp := by
  rw [sp_effect_pop_of_ne hy, sp_effect_push, BitVec.sub_add_cancel]

/-- The pair writes no register but the one the POP names. -/
theorem effect_pop_effect_push_sameRegsBut {y : RegOperand} (hy : regOf y ≠ spIndex) (x : RegOperand) (s : State) :
    SameRegsBut [regOf y] s (effect (.pop y) (effect (.push x) s)) := by
  intro q hq
  by_cases hqsp : q = spIndex
  · exact hqsp ▸ sp_effect_pop_effect_push hy x s
  · have hpop := effect_pop_sameRegsBut y (effect (.push x) s) q (by simpa [hqsp] using hq)
    exact hpop.trans (effect_push_sameRegsBut x s q (by simpa using hqsp))

/-- Settles O36: the POP reads the cell the PUSH stored, and undoes the move of SP. -/
theorem pushThenPopCopiesTheRegister : Obligations.PushThenPopCopiesTheRegister := by
  intro x y r r2 s hx hy hr hr2 hb
  have hpush : exec (.push x) s = .next (effect (.push x) s) :=
    exec_push hx fun ⟨hs, hv⟩ => hb ⟨hs, hv.imp_right fun h => by omega⟩
  have hpop := exec_pop hy (pop_bound_after_push hb x)
  have hexec := (execSeq_cons_of_next hpush [.pop y]).trans (execSeq_cons_of_next hpop [])
  obtain rfl := regOf_eq hy
  have htop : (effect (.push x) s).memRead (s.sp - 1) = s.getReg r := by simp [memRead_effect_push hx hr]
  have hmem : SameMemory (effect (.push x) s) (effect (.pop y) (effect (.push x) s)) :=
    effect_sameMemory (i := .pop y) nofun nofun _
  have hpc : (effect (.pop y) (effect (.push x) s)).pc = s.pc + 2 + 2 := effect_pc (i := .pop y) rfl
  refine ⟨_, hexec, ?_, sp_effect_pop_effect_push hr2 x s, ?_, effect_pop_effect_push_sameRegsBut hr2 x s,
    (hmem _).trans htop, fun a ha => (hmem a).trans (effect_sameMemoryBut _ s a ha)⟩
  · rw [getReg_effect_pop hr2, sp_effect_push, htop]
  · rw [hpc]
    ring

/-! ### O39: filling the stack -/

/-- What pushing `rs`, the first one first, makes of `s`: SP is lower by their number, their values stand from just
below the old SP downward, and the cells from the old SP up are the old ones. -/
structure PushedDownward (rs : List Reg) (s t : State) : Prop where
  sp : t.sp.toNat = s.sp.toNat - rs.length
  stored : ∀ (j : Nat) (h : j < rs.length), t.memRead (BitVec.ofNat 8 (s.sp.toNat - 1 - j)) = s.getReg rs[j]
  kept : ∀ a : Byte, s.sp.toNat ≤ a.toNat → t.memRead a = s.memRead a

theorem toNat_ofNat_reg (r : Reg) : (BitVec.ofNat 8 r.val).toNat = r.val := by
  rw [BitVec.toNat_ofNat]; omega

theorem PushedDownward.nil (s : State) : PushedDownward [] s s :=
  ⟨rfl, nofun, fun _ _ => rfl⟩

/-- A push before other pushes: the first value is in the first cell below SP, and the others stay clear of it. -/
theorem PushedDownward.cons {r : Reg} {rs : List Reg} {s t : State} {x : Byte} (hx : x.toNat = r.val)
    (hr : r ≠ spIndex) (hrs : ∀ q ∈ rs, q ≠ spIndex) (hsp : 0 < s.sp.toNat)
    (h : PushedDownward rs (effect (.push x) s) t) : PushedDownward (r :: rs) s t := by
  have hdec : (effect (.push x) s).sp.toNat = s.sp.toNat - 1 := by
    rw [sp_effect_push]; bv_omega
  obtain ⟨htsp, hstored, hkept⟩ := h
  rw [hdec] at htsp hkept
  simp only [hdec] at hstored
  refine ⟨?_, ?_, fun a ha => ?_⟩
  · rw [htsp, List.length_cons]
    omega
  · rintro (_ | j) hj
    · have haddr : BitVec.ofNat 8 (s.sp.toNat - 1 - 0) = s.sp - 1 := by bv_omega
      have hkept' := hkept (s.sp - 1) (by bv_omega)
      rw [haddr, hkept', memRead_effect_push hx hr, if_pos rfl, List.getElem_cons_zero]
    · have hj' : j < rs.length := Nat.lt_of_succ_lt_succ hj
      have hval := effect_push_sameRegsBut x s rs[j] (by simpa using hrs _ (List.getElem_mem hj'))
      have haddr : s.sp.toNat - 1 - (j + 1) = s.sp.toNat - 1 - 1 - j := by omega
      rw [haddr, hstored j hj', hval, List.getElem_cons_succ]
  · rw [hkept a (by omega), effect_sameMemoryBut _ s a (by bv_omega)]

/-- Pushes complete wherever the stack has room for them below SP, and fill it downward (R112). -/
theorem exists_execSeq_push (rs : List Reg) (s : State) (hrs : ∀ r ∈ rs, r ≠ spIndex)
    (hroom : rs.length ≤ s.sp.toNat) (hb : ¬ (s.strict ∧ 255 < s.pc.toNat + 2 * rs.length)) :
    ∃ t, execSeq (rs.map fun r => .push (BitVec.ofNat 8 r.val)) s = .next t ∧ PushedDownward rs s t := by
  induction rs generalizing s with
  | nil => exact ⟨s, rfl, .nil s⟩
  | cons r rs ih =>
    rw [List.length_cons] at hroom hb
    obtain ⟨hr, hrs⟩ := List.forall_mem_cons.mp hrs
    have hx := toNat_ofNat_reg r
    have hpush := exec_push (s := s) hx fun ⟨hs, hv⟩ => hb ⟨hs, by bv_omega⟩
    have hpc : (effect (.push (BitVec.ofNat 8 r.val)) s).pc = s.pc + 2 := effect_pc rfl
    obtain ⟨t, hexec, ht⟩ := ih (effect (.push (BitVec.ofNat 8 r.val)) s) hrs
      (by rw [sp_effect_push]; bv_omega)
      (by
        rw [State.strict, effect_params, hpc]
        exact fun ⟨hs, hv⟩ => hb ⟨hs, by bv_omega⟩)
    exact ⟨t, (execSeq_cons_of_next hpush _).trans hexec, ht.cons hx hr hrs (by omega)⟩

/-- Settles O39, from the same fact for any SP with room below it, by induction on the registers pushed. -/
theorem pushesFillTheStackDownward : Obligations.PushesFillTheStackDownward := by
  intro rs s hrs hlen hsp hb
  have hsp' : s.sp.toNat = 255 := by rw [hsp]; rfl
  obtain ⟨t, hexec, htsp, hstored, -⟩ := exists_execSeq_push rs s hrs (hlen.trans_eq hsp'.symm) hb
  rw [hsp'] at htsp
  simp only [hsp'] at hstored
  exact ⟨t, hexec, htsp, hstored⟩

end Sys2Proof.Machine

/-! ## Control transfer (43_control.md) -/

namespace Sys2Proof.Machine

/-! ### When CALL and RET complete -/

/-- The strict bound of CALL is the full stack (R157). -/
theorem ownBound_call (x : RegOperand) (s : State) : ownBound (.call x) s = true ↔ s.sp = 0 := beq_iff_eq

/-- The strict bound of RET is the empty stack (R157). -/
theorem ownBound_ret (s : State) : ownBound .ret s = true ↔ s.sp = 255 := beq_iff_eq

theorem exec_call {x : Byte} {rX : Reg} {s : State} (hx : x.toNat = rX.val) (hb : ¬ (s.strict ∧ s.sp = 0)) :
    exec (.call x) s = .next (effect (.call x) s) :=
  exec_effect_of_not_strict_and (wellFormed_of_oneReg rfl hx) (ownBound_call x s).mp hb

theorem exec_ret {s : State} (hb : ¬ (s.strict ∧ s.sp = 255)) : exec .ret s = .next (effect .ret s) :=
  exec_effect_of_not_strict_and rfl (ownBound_ret s).mp hb

/-! ### O8: CALL -/

theorem sp_effect_call (x : RegOperand) (s : State) : (effect (.call x) s).sp = s.sp - 1 :=
  getReg_setReg_self s spIndex _

/-- CALL writes no register but SP, not even the one it names. -/
theorem effect_call_sameRegsBut (x : RegOperand) (s : State) : SameRegsBut [spIndex] s (effect (.call x) s) :=
  setReg_sameRegsBut s spIndex _

/-- CALL stores its return address just below the old SP. -/
theorem memRead_effect_call_top (x : RegOperand) (s : State) : (effect (.call x) s).memRead (s.sp - 1) = s.pc + 2 := by
  have hsp : s.growStack.sp = s.sp - 1 := getReg_setReg_self s spIndex _
  rw [← hsp]
  exact memRead_memWrite_self s.growStack _ _

/-- CALL goes to its register as it reads after the push, which moved SP and no other register. -/
theorem pc_effect_call (x : RegOperand) (s : State) :
    (effect (.call x) s).pc = if regOf x = spIndex then s.sp - 1 else s.getReg (regOf x) :=
  getReg_growStack s (regOf x)

/-- Settles O8: CALL completes, and its effect is one write of SP, one store at the new SP and the write of pc. -/
theorem callPushesItsReturnAddress : Obligations.CallPushesItsReturnAddress := by
  intro x rX s hx hb
  have hexec := exec_call hx hb
  obtain rfl := regOf_eq hx
  refine ⟨_, hexec, sp_effect_call x s, memRead_effect_call_top x s, pc_effect_call x s, effect_call_sameRegsBut x s,
    effect_sameFlags ?_ s, effect_sameMemoryBut _ s, effect_out_of_ne_prn ?_ s, effect_sameControl ?_ s⟩ <;> nofun

/-! ### O9: RET -/

theorem sp_effect_ret (s : State) : (effect .ret s).sp = s.sp + 1 := getReg_setReg_self _ spIndex _

theorem pc_effect_ret (s : State) : (effect .ret s).pc = s.memRead s.sp := rfl

/-- RET writes no register but SP. -/
theorem effect_ret_sameRegsBut (s : State) : SameRegsBut [spIndex] s (effect .ret s) :=
  setReg_sameRegsBut (s.setPc s.readTop) spIndex _

/-- Settles O9: RET completes, and its effect is the write of pc from the cell at SP and one write of SP. -/
theorem retPopsThePc : Obligations.RetPopsThePc := by
  intro s hb
  refine ⟨_, exec_ret hb, pc_effect_ret s, sp_effect_ret s, effect_ret_sameRegsBut s, effect_sameFlags ?_ s,
    effect_sameMemory ?_ ?_ s, effect_out_of_ne_prn ?_ s, effect_sameControl ?_ s⟩ <;> nofun

/-! ### O37: CALL, then RET -/

/-- Where a CALL has room, the RET after it does not find the stack empty. -/
theorem ret_bound_after_call {s : State} (hb : ¬ (s.strict ∧ s.sp = 0)) (x : RegOperand) :
    ¬ ((effect (.call x) s).strict ∧ (effect (.call x) s).sp = 255) := by
  rw [State.strict, effect_params, sp_effect_call]
  exact fun ⟨hs, hsp⟩ => hb ⟨hs, by bv_omega⟩

/-- The pair writes no register: the RET undoes the move of SP by the CALL. -/
theorem effect_ret_effect_call_sameRegs (x : RegOperand) (s : State) :
    SameRegs s (effect .ret (effect (.call x) s)) := by
  intro r
  by_cases hr : r = spIndex
  · have hsp : (effect .ret (effect (.call x) s)).sp = s.sp := by
      rw [sp_effect_ret, sp_effect_call, BitVec.sub_add_cancel]
    exact hr ▸ hsp
  · have hr' : r ∉ [spIndex] := by simpa using hr
    exact (effect_ret_sameRegsBut _ r hr').trans (effect_call_sameRegsBut x s r hr')

/-- Settles O37: the RET reads the cell the CALL stored, and undoes the move of SP. -/
theorem callThenRetResumesAfterTheCall : Obligations.CallThenRetResumesAfterTheCall := by
  intro x rX s hx hb
  have hret := exec_ret (ret_bound_after_call hb x)
  have hexec := (execSeq_cons_of_next (exec_call hx hb) [.ret]).trans (execSeq_cons_of_next hret [])
  have hpc : (effect .ret (effect (.call x) s)).pc = s.pc + 2 := by
    rw [pc_effect_ret, sp_effect_call, memRead_effect_call_top]
  have hmem : SameMemory (effect (.call x) s) (effect .ret (effect (.call x) s)) :=
    effect_sameMemory (i := .ret) nofun nofun _
  exact ⟨_, hexec, hpc, effect_ret_effect_call_sameRegs x s,
    fun a ha => (hmem a).trans (effect_sameMemoryBut _ s a ha)⟩

/-! ### O10, O11, O12: the jumps -/

/-- A write of pc leaves everything else (R76). -/
theorem setPc_frame (s : State) (a : Byte) :
    SameRegs s (s.setPc a) ∧ SameFlags s (s.setPc a) ∧ SameMemory s (s.setPc a) ∧ SameOutput s (s.setPc a) ∧
      SameControl s (s.setPc a) :=
  ⟨fun _ => rfl, ⟨rfl, rfl, rfl⟩, fun _ => rfl, rfl, rfl, rfl, rfl, rfl⟩

/-- A one-register instruction with no bound of its own, whose effect is a write of pc, completes with that write. -/
theorem exec_eq_setPc {i : Instr} {x : Byte} {rX : Reg} {s : State} {target : Byte} (hi : i.regOperands = [x])
    (hx : x.toNat = rX.val) (hbound : ownBound i s = false) (heffect : effect i s = s.setPc target) :
    exec i s = .next (s.setPc target) :=
  heffect ▸ exec_effect (wellFormed_of_oneReg hi hx) fun _ => hbound

/-- JEQ writes pc and nothing else, whichever way E decides (R124). -/
theorem effect_jeq (x : RegOperand) (s : State) :
    effect (.jeq x) s = s.setPc (if s.flagE then s.getReg (regOf x) else s.pc + 2) :=
  (apply_ite s.setPc _ _ _).symm

/-- JNE writes pc and nothing else, whichever way E decides (R125). -/
theorem effect_jne (x : RegOperand) (s : State) :
    effect (.jne x) s = s.setPc (if s.flagE then s.pc + 2 else s.getReg (regOf x)) :=
  (apply_ite s.setPc _ _ _).symm

/-- Settles O10: JMP completes, and its effect is the write of pc. -/
theorem jmpGoesToTheRegister : Obligations.JmpGoesToTheRegister := by
  intro x rX s hx
  have hexec := exec_eq_setPc (i := .jmp x) (s := s) rfl hx rfl rfl
  obtain rfl := regOf_eq hx
  exact ⟨_, hexec, rfl, setPc_frame s _⟩

/-- Settles O11: JEQ completes, and its effect is the write of pc, at the target E decides. -/
theorem jeqFollowsE : Obligations.JeqFollowsE := by
  intro x rX s hx
  have hexec := exec_eq_setPc rfl hx rfl (effect_jeq x s)
  obtain rfl := regOf_eq hx
  exact ⟨_, hexec, fun hE => if_pos hE, fun hE => if_neg (Bool.eq_false_iff.mp hE), setPc_frame s _⟩

/-- Settles O12: JNE completes, and its effect is the write of pc, at the target E decides. -/
theorem jneFollowsE : Obligations.JneFollowsE := by
  intro x rX s hx
  have hexec := exec_eq_setPc rfl hx rfl (effect_jne x s)
  obtain rfl := regOf_eq hx
  exact ⟨_, hexec, fun hE => if_neg (Bool.eq_false_iff.mp hE), fun hE => if_pos hE, setPc_frame s _⟩

end Sys2Proof.Machine

/-! ## The system instruction (44_system.md) -/

namespace Sys2Proof.Machine

/-! ### O13: HLT -/

/-- The strict bound of HLT is its advance (R156). -/
theorem ownBound_hlt (s : State) : ownBound .hlt s = true ↔ 255 < s.pc.toNat + 1 := decide_eq_true_iff

/-- HLT has no operand to check, so only its strict bound can keep it from completing. -/
theorem exec_hlt {s : State} (hb : ¬ (s.strict ∧ 255 < s.pc.toNat + 1)) : exec .hlt s = .next (effect .hlt s) :=
  exec_effect_of_not_strict_and rfl (ownBound_hlt s).mp hb

/-- HLT writes no register: it halts and advances pc (R140). -/
theorem effect_hlt_sameRegs (s : State) : SameRegs s (effect .hlt s) := halt_getReg s

/-- Every effect, HLT's among them, leaves the fault record and the parameters (R28, R34). -/
theorem effect_sameRecord (i : Instr) (s : State) : SameRecord s (effect i s) :=
  ⟨effect_faultCause i s, effect_faultPc i s, effect_params i s⟩

/-- Settles O13: HLT completes, and its effect is the entry to Halted and the advance of pc. -/
theorem hltHaltsAndAdvances : Obligations.HltHaltsAndAdvances := by
  intro s hb
  have hrun : (effect .hlt s).run = .halted := effect_run .hlt s
  refine ⟨_, exec_hlt hb, hrun, effect_pc rfl, effect_hlt_sameRegs s, effect_sameFlags ?_ s,
    effect_sameMemory ?_ ?_ s, effect_out_of_ne_prn ?_ s, effect_sameRecord .hlt s⟩ <;> nofun

end Sys2Proof.Machine

/-! ## Exceptions and debug (60_exceptions.md) -/

namespace Sys2Proof.Machine

/-! ### O17, O18, O19: the strict bounds of an instruction -/

/-- Under `STRICT_BOUNDS` a well-formed instruction whose own bound is violated enters Fatal with BoundsViolation. -/
theorem exec_enters_boundsViolation {i : Instr} {s : State} (hs : s.strict) (hw : i.wellFormed = true)
    (hb : ownBound i s = true) : ∃ t, exec i s = .next t ∧ EntersFatal .boundsViolation s t :=
  ⟨_, by rw [exec_eq, if_pos hw, if_pos (Bool.and_eq_true_iff.mpr ⟨hs, hb⟩)], raiseFatal_enters .boundsViolation s⟩

/-- An advance past 255 violates the own bound of each of the eight instructions of R81 (R156). -/
theorem ownBound_of_advance {i : Instr} {s : State} (hadv : advancesPc i.mnemonic = true)
    (h : 255 < s.pc.toNat + i.width) : ownBound i s = true := by
  rw [← Bool.not_eq_false]
  exact fun hb => absurd (advance_of_ownBound hadv hb) (by omega)

/-- Where the fetch bound of R155 is met, only three bytes from 253 reach past 255 (R156). -/
theorem width_and_pc_of_advance {i : Instr} {s : State} (h : 255 < s.pc.toNat + i.width) (hpc : s.pc.toNat < 254) :
    i.width = 3 ∧ s.pc = 253 := by
  have hwidth : i.width ≤ 3 := (width_bounds i.mnemonic).2
  exact ⟨by omega, by bv_omega⟩

/-- Settles O17: the advance violates the instruction's own bound, and no width is above 3. -/
theorem strictAdvanceBound : Obligations.StrictAdvanceBound := fun _ _ hadv hw hs h =>
  ⟨exec_enters_boundsViolation hs hw (ownBound_of_advance hadv h), width_and_pc_of_advance h⟩

/-- Settles O18: the stack bound is one of each instruction's own bounds, wherever pc is. -/
theorem strictStackBounds : Obligations.StrictStackBounds := by
  intro x s hs hx
  have hx : x.toNat = (regOf x).val := (regOf_val hx).symm
  refine ⟨fun hfull => ⟨?_, ?_⟩, fun hempty => ⟨?_, ?_⟩⟩
  · exact exec_enters_boundsViolation hs (wellFormed_of_oneReg rfl hx) ((ownBound_push x s).mpr (.inl hfull))
  · exact exec_enters_boundsViolation hs (wellFormed_of_oneReg rfl hx) ((ownBound_call x s).mpr hfull)
  · exact exec_enters_boundsViolation hs (wellFormed_of_oneReg rfl hx) ((ownBound_pop x s).mpr (.inl hempty))
  · exact exec_enters_boundsViolation hs rfl ((ownBound_ret s).mpr hempty)

/-- Settles O19: the exact sum and the exact product are among the own bounds of ADD and MUL. -/
theorem strictArithmeticBounds : Obligations.StrictArithmeticBounds := by
  intro x y rX rY s hs hx hy
  have hadd : (Instr.add x y).wellFormed = true := wellFormed_of_twoRegs rfl hx hy
  have hmul : (Instr.mul x y).wellFormed = true := wellFormed_of_twoRegs rfl hx hy
  obtain rfl := regOf_eq hx
  obtain rfl := regOf_eq hy
  exact ⟨fun hsum => exec_enters_boundsViolation hs hadd ((ownBound_add x y s).mpr (.inl hsum)),
    fun hprod => exec_enters_boundsViolation hs hmul ((ownBound_mul x y s).mpr (.inl hprod))⟩

/-! ### O16, O20: a step into Fatal -/

/-- Settles O16: the fetch bound is the first check of a step, before memory is read. -/
theorem strictFetchBound : Obligations.StrictFetchBound := by
  intro s hr hs hpc
  obtain ⟨-, hleaves⟩ := Bool.and_eq_true_iff.mp ((fetchBound_iff s).mpr ⟨hs, hpc⟩)
  exact ⟨_, step_of_fetchLeaves hr hs hleaves, raiseFatal_enters .boundsViolation s⟩

/-- The ALU has no operation it does not implement, so no step raises that cause (R103, R154). -/
theorem State.canRaise.ne_unsupportedOperation {s : State} {c : FaultCause} (h : s.canRaise c) :
    c ≠ .unsupportedOperation := by
  rcases h with rfl | rfl | ⟨rfl, -⟩ <;> nofun

/-- Settles O20: from Running only `raiseFatal` enters Fatal, as no effect does. -/
theorem fatalStepWritesOnlyTheFaultRecord : Obligations.FatalStepWritesOnlyTheFaultRecord := by
  intro s t hr h ht
  rcases step_stays_raises_or_effect h with ⟨hn, -⟩ | ⟨-, c, hc, rfl⟩ | ⟨-, i, -, rfl⟩
  · exact absurd hr hn
  · exact ⟨c, hc.ne_unsupportedOperation, rfl⟩
  · exact absurd ht (effect_run_ne_fatal (by simp [hr]))

/-! ### O55: the debug observation -/

/-- Settles O55: each value of the observation is read off the state, a register by its index. -/
theorem debugObservationShowsTheState : Obligations.DebugObservationShowsTheState := fun _ =>
  ⟨rfl, rfl, rfl, rfl, fun _ => rfl, rfl, rfl, rfl⟩

end Sys2Proof.Machine

/-! ## Reset, load and the interface (70_reset_and_hazards.md) -/

namespace Sys2Proof.Machine

/-! ### Writing many cells -/

/-- Up to 256 bytes written from `a` on read back in order; every other cell keeps its byte (R53, R54). -/
theorem Memory.read_writeBytes (m : Memory) (a c : Byte) {bs : List Byte} (h : bs.length ≤ 256) :
    (m.writeBytes a bs).read c = bs.getD (c - a).toNat (m.read c) := by
  induction bs generalizing m a with
  | nil => rfl
  | cons b bs ih =>
    rw [List.length_cons] at h
    rw [Memory.writeBytes, ih _ _ (by omega)]
    by_cases hc : c = a
    · have hpast : bs.length ≤ (c - (a + 1)).toNat := by bv_omega
      have hfirst : (c - a).toNat = 0 := by bv_omega
      rw [List.getD_eq_default _ _ hpast, hfirst, hc, Memory.read_write_self, List.getD_cons_zero]
    · have hrest : (c - a).toNat = (c - (a + 1)).toNat + 1 := by bv_omega
      rw [Memory.read_write_ne _ hc, hrest, List.getD_cons_succ]

/-- The memory of an image: byte `i` at address `i`, 0 in every other cell (R180). -/
theorem Memory.read_writeBytes_empty {b : List Byte} (h : b.length ≤ 256) (a : Byte) :
    (Memory.writeBytes { cells := [] } 0 b).read a = b.getD a.toNat 0 := by
  have haddr : a - 0 = a := BitVec.sub_zero a
  rw [Memory.read_writeBytes _ _ _ h, Memory.read_empty, haddr]

/-- The memory after the bytes of `b` are written one by one, each at its own index, in the given order of indices
(R183 step 2). -/
def Memory.loadInOrder (b : List Byte) (m : Memory) : List Nat → Memory
  | [] => m
  | n :: order => Memory.loadInOrder b (m.write (BitVec.ofNat 8 n) (b.getD n 0)) order

theorem Memory.loadInOrder_wf {m : Memory} (h : m.wf) (b : List Byte) (order : List Nat) :
    (m.loadInOrder b order).wf := by
  induction order generalizing m with
  | nil => exact h
  | cons n order ih => exact ih (Memory.write_wf h _ _)

/-- A load at an index below 256 is a write of the cell at that index. -/
theorem Memory.read_write_ofNat (m : Memory) {n : Nat} (hn : n < 256) (v c : Byte) :
    (m.write (BitVec.ofNat 8 n) v).read c = if c.toNat = n then v else m.read c := by
  have haddr : c = BitVec.ofNat 8 n ↔ c.toNat = n := by
    rw [← BitVec.toNat_inj, BitVec.toNat_ofNat, Nat.mod_eq_of_lt hn]
  simp only [Memory.read_write, haddr]

/-- Each cell whose index was loaded holds its byte, whatever the order; every other cell keeps its own. -/
theorem Memory.read_loadInOrder (b : List Byte) (m : Memory) {order : List Nat} (h : ∀ n ∈ order, n < 256)
    (c : Byte) :
    (m.loadInOrder b order).read c = if c.toNat ∈ order then b.getD c.toNat 0 else m.read c := by
  induction order generalizing m with
  | nil => rfl
  | cons n order ih =>
    obtain ⟨hn, horder⟩ := List.forall_mem_cons.mp h
    rw [Memory.loadInOrder, ih _ horder, Memory.read_write_ofNat m hn]
    by_cases hlater : c.toNat ∈ order
    · rw [if_pos hlater, if_pos (List.mem_cons_of_mem _ hlater)]
    · by_cases hc : c.toNat = n <;> simp [hlater, hc]

/-- Loading the bytes of an image in any order gives what writing them at increasing addresses gives: both are
canonical and read alike. -/
theorem loadInOrder_eq_writeBytes {b : List Byte} {order : List Nat} (hb : b.length ≤ 256)
    (h : order.Perm (List.range b.length)) :
    Memory.loadInOrder b { cells := [] } order = Memory.writeBytes { cells := [] } 0 b := by
  have hmem (n : Nat) : n ∈ order ↔ n < b.length := h.mem_iff.trans List.mem_range
  refine canonicalMemoriesThatReadAlikeAreEqual _ _ (Memory.loadInOrder_wf Memory.empty_wf b order)
    (Memory.writeBytes_wf Memory.empty_wf 0 b) fun a => ?_
  rw [Memory.read_loadInOrder b _ (fun n hn => ((hmem n).mp hn).trans_le hb), Memory.read_writeBytes_empty hb,
    Memory.read_empty]
  exact ite_eq_left_iff.mpr fun hout => (List.getD_eq_default b 0 (not_lt.mp (mt (hmem _).mpr hout))).symm

/-! ### O46, O47: the loader contract -/

/-- The reset state of R180 with the memory `m`. -/
def State.resetWithMem (p : Params) (m : Memory) : State := { State.resetWith p with mem := m }

theorem resetWithMem_empty (p : Params) : State.resetWithMem p { cells := [] } = State.resetWith p := rfl

theorem loadImage_eq {p : Params} {b : List Byte} (h : b.length ≤ 256) :
    loadImage p b = .next (State.resetWithMem p (Memory.writeBytes { cells := [] } 0 b)) := if_pos h

theorem loadImage_of_long {p : Params} {b : List Byte} (h : 256 < b.length) :
    loadImage p b = .refused (.imageTooLong b.length) := if_neg h.not_ge

/-- After reset every register but SP is 0 (R180). -/
theorem getReg_resetWith_of_ne {r : Reg} (h : r ≠ spIndex) (p : Params) : (State.resetWith p).getReg r = 0 :=
  (getReg_setReg_ne (s := { State.resetWith p with reg := .replicate 8 0 }) h.symm spReset).trans
    (Vector.getElem_replicate r.isLt)

/-- After reset SP is 255 (R181). -/
theorem sp_resetWith (p : Params) : (State.resetWith p).sp = 255 := rfl

/-- Settles O46: the image is written at address 0 on, over a memory of zeros; the rest is the reset state. -/
theorem resetStateOfAnImage : Obligations.ResetStateOfAnImage := by
  intro p b hb
  exact ⟨_, loadImage_eq hb, fun r hr => getReg_resetWith_of_ne hr p, sp_resetWith p, rfl, rfl, rfl, rfl, rfl, rfl,
    rfl, rfl, rfl, Memory.read_writeBytes_empty hb⟩

/-- With nothing loaded the first opcode is 0x00, which no valid binding has (R73, R184). -/
theorem step_resetWith {p : Params} (h : p.opc.wellFormed = true) :
    step (State.resetWith p) = .next ((State.resetWith p).raiseFatal .unknownInstruction) := by
  have hfetch : ¬ ((State.resetWith p).strict ∧ 254 ≤ (State.resetWith p).pc.toNat) := by
    have hpc : (State.resetWith p).pc.toNat = 0 := rfl
    omega
  have hdecode : (State.resetWith p).fetchDecode = .error (.unknownInstruction 0) :=
    decode_of_lookup_none (lookupOpcode_zero h) _ _
  exact step_of_unknown rfl (fetchBound_eq_false hfetch) hdecode

/-- Settles O47: the loader refuses a long image, and the memory of an empty one holds no opcode. -/
theorem loaderContractAtItsEnds : Obligations.LoaderContractAtItsEnds :=
  ⟨fun _ _ hb => loadImage_of_long hb, fun p hp =>
    ⟨State.resetWith p, _, loadImage_eq (Nat.zero_le 256), step_resetWith hp,
      raiseFatal_enters .unknownInstruction _, rfl⟩⟩

/-! ### O48, O58: the invariant at the start of a run -/

/-- A reset state with a canonical memory and a valid binding meets the invariant: its fault record is zero (R28). -/
theorem resetWithMem_inv {p : Params} {m : Memory} (hp : p.opc.wellFormed = true) (hm : m.wf) :
    (State.resetWithMem p m).Inv :=
  ⟨hm, ⟨rfl, rfl⟩, hp⟩

/-- Settles O58: loading bytes keeps the memory canonical. -/
theorem loadedImagesMeetTheInvariant : Obligations.LoadedImagesMeetTheInvariant := fun _ b hp hb =>
  ⟨resetWithMem_inv hp Memory.empty_wf, _, loadImage_eq hb,
    resetWithMem_inv hp (Memory.writeBytes_wf Memory.empty_wf 0 b)⟩

/-- Settles O48: the default binding is valid, and the empty memory is canonical. -/
theorem resetMeetsTheInvariant : Obligations.ResetMeetsTheInvariant := by
  obtain ⟨hopc, -⟩ := defaultBindingMeetsItsConstraints
  exact resetWithMem_inv hopc Memory.empty_wf

/-! ### O51: a reset edge -/

/-- The chip held in reset with the memory `m`. -/
def Chip.heldInReset (p : Params) (m : Memory) : Chip where
  core := State.resetWithMem p m
  inReset := true
  outPort := none

theorem powerUp_eq (p : Params) : Chip.powerUp p = Chip.heldInReset p { cells := [] } := rfl

theorem edge_of_rst (c : Chip) {i : Inputs} (h : i.rst = true) : c.edge i = .next (c.resetEdge i) := if_pos h

/-- The first edge of a reset zeroes memory, whatever `ld_we` is (R183 step 1). -/
theorem resetEdge_of_first {c : Chip} (h : c.inReset = false) (i : Inputs) :
    c.resetEdge i = Chip.heldInReset c.core.params { cells := [] } := by
  simp [Chip.resetEdge, Chip.heldInReset, h, resetWithMem_empty]

/-- A later edge of a reset writes the host's byte if `ld_we` is high (R183 step 2). -/
theorem resetEdge_of_later {c : Chip} (h : c.inReset = true) (i : Inputs) :
    c.resetEdge i =
      Chip.heldInReset c.core.params (if i.ldWe then c.core.mem.write i.ldAddr i.ldData else c.core.mem) := by
  simp [Chip.resetEdge, Chip.heldInReset, h, State.resetWithMem]

/-- Whatever the run state was, a reset edge leaves the chip held in reset with some memory (R182). -/
theorem resetEdge_eq_heldInReset (c : Chip) (i : Inputs) : ∃ m, c.resetEdge i = Chip.heldInReset c.core.params m := by
  cases h : c.inReset with
  | false => exact ⟨_, resetEdge_of_first h i⟩
  | true => exact ⟨_, resetEdge_of_later h i⟩

/-- The cell that a later edge of a reset loads, and the cells it leaves (R183 step 2). -/
theorem read_ite_write (m : Memory) (we : Bool) (addr data a : Byte) :
    (if we then m.write addr data else m).read a = if we = true ∧ a = addr then data else m.read a := by
  cases we with
  | false => simp
  | true => simp [Memory.read_write]

/-- Settles O51: the chip is held in reset, and `inReset` decides its memory. -/
theorem resetEdgeFromAnyState : Obligations.ResetEdgeFromAnyState := by
  intro c i hi
  refine ⟨_, edge_of_rst c hi, rfl, rfl, ?_, fun hfirst a => ?_, fun hlater a => ?_⟩
  · obtain ⟨m, hm⟩ := resetEdge_eq_heldInReset c i
    rw [hm]
    rfl
  · rw [resetEdge_of_first hfirst]
    exact Memory.read_empty a
  · rw [resetEdge_of_later hlater]
    exact read_ite_write c.core.mem i.ldWe i.ldAddr i.ldData a

/-! ### O52: the reset sequence -/

/-- A load edge in reset writes one cell and keeps the chip in reset (R183 step 2). -/
theorem edge_loadInputs (p : Params) (m : Memory) (a v : Byte) :
    (Chip.heldInReset p m).edge (loadInputs a v) = .next (Chip.heldInReset p (m.write a v)) := rfl

/-- The load edges of a list of indices write the bytes at these indices, in order. -/
theorem edges_loadInputs (p : Params) (m : Memory) (b : List Byte) (order : List Nat) :
    (Chip.heldInReset p m).edges (order.map fun n => loadInputs (BitVec.ofNat 8 n) (b.getD n 0)) =
      .next (Chip.heldInReset p (m.loadInOrder b order)) := by
  induction order generalizing m with
  | nil => rfl
  | cons n order ih =>
    rw [List.map_cons, edges_cons_of_next (edge_loadInputs p m _ _), ih, Memory.loadInOrder]

/-- Settles O52: after its first edge a reset stands where power-up does; from there the order of the loads does not
matter, and the edge that ends the reset is a step of the CORE. -/
theorem resetSequenceLoadsTheImage : Obligations.ResetSequenceLoadsTheImage := by
  intro c first b order hc hfirst hb horder
  have hedge : c.edge first = .next (Chip.heldInReset c.core.params { cells := [] }) := by
    rw [edge_of_rst c hfirst, resetEdge_of_first hc]
  have hloads := edges_loadInputs c.core.params { cells := [] } b order
  rw [loadInOrder_eq_writeBytes hb horder] at hloads
  exact ⟨_, _, _, loadImage_eq hb, (edges_cons_of_next hedge _).trans hloads, hloads, rfl, rfl, rfl, rfl,
    fun _ _ hi ht => ⟨_, edge_of_step hi ht, rfl⟩⟩

/-! ### O54: the outputs after an edge -/

/-- The byte a step emitted is the one by which the output stream grew (R92, R192). -/
theorem emitted_eq_some_iff {s t : State} (h : step s = .next t) (v : Byte) :
    emitted s t = some v ↔ t.out = s.out ++ [v] := by
  rw [step_out_emitted h, List.append_cancel_left_eq]
  cases emitted s t <;> simp

/-- Settles O54: the edge is a step, the port shows what it emitted, and the status outputs are read off the state. -/
theorem outputsAfterAnEdge : Obligations.OutputsAfterAnEdge := by
  intro c i hi
  obtain ⟨t, ht⟩ := exists_step c.core
  exact ⟨_, edge_of_step hi ht, ht, emitted_eq_some_iff ht, decide_eq_true_iff, decide_eq_true_iff, rfl, rfl⟩

/-! ### O56: the exit status -/

/-- Settles O56: each run state has its own exit status. -/
theorem exitStatusOfAnEndedRun : Obligations.ExitStatusOfAnEndedRun := by
  intro s
  cases hr : s.run with
  | running | halted | fatal => simp [exitStatus, diagnosticPc, State.stoppedCleanly, State.failed, hr]

end Sys2Proof.Machine
